-- ==== Sys2Proof/Word.lean ====
section
/-! DEFINITION. The two word types of the codec: a packed byte (R7, R22) and a command word (R60). -/

namespace Sys2Proof

/-- A packed byte: a `PBUF` cell, 8 bits (R7, R22). Also the width of the operand field `BITS` (R61). -/
abbrev Byte := BitVec 8

/-- A command word, the value written to register `CMD`, 9 bits (R14, R60). -/
abbrev CmdWord := BitVec 9

end Sys2Proof
end

