-- ==== Sys2Proof/Config.lean ====
section
/-! DEFINITION. The parameters an implementation fixes (R8, R9, U7) and the one source of free values (U3, U5). -/

namespace Sys2Proof

/-- The two open parameters of the core. They are plain numbers, so that a machine can be written out;
`Config.Ok` is the spec's constraint on them.
DESIGN CHOICE (assumption 1): a configuration stands in State, so that a statement about every state is a
statement about every `W_ELEM` and every `W_LEN`. -/
structure Config where
  /-- `W_ELEM`, the width in bits of an `EBUF` cell (R8). -/
  wElem : Nat
  /-- `W_LEN`, the width in bits of a length register and of a cell index (R9). -/
  wLen : Nat
  deriving DecidableEq, Repr

/-- R8: `W_ELEM >= 8`; R9: `W_LEN >= 4`. -/
abbrev Config.Ok (c : Config) : Prop := 8 ≤ c.wElem ∧ 4 ≤ c.wLen

/-- R8's default `W_ELEM = 8`; R9 gives no default for `W_LEN`: 16 is a DESIGN CHOICE (assumption 1). -/
def Config.default : Config where
  wElem := 8
  wLen := 16

/-- What a free value is drawn for: each read of a cell that holds no defined value, and each cell that R99 (d)
leaves unspecified, has a name of its own, so that no two draws of one operation are the same draw. -/
inductive Draw where
  /-- PACK's range check reads `EBUF[k]` (R95). -/
  | packCheck (k : Nat)
  /-- PACK's byte assembly reads `EBUF[k]` (R93). -/
  | packAssemble (k : Nat)
  /-- UNPACK reads `PBUF[i]` (R113). -/
  | unpackSource (i : Nat)
  /-- The host reads `EBUF[i]` by `RDE` (R130). -/
  | hostElement (i : Nat)
  /-- The host reads `PBUF[i]` by `RDP` (R132). -/
  | hostByte (i : Nat)
  /-- The byte `PBUF[i]` holds after a `ValueOutOfRange` (R99 (d), U5). -/
  | afterRangeError (i : Nat)
  deriving DecidableEq, Repr

/-- The free value of width `w` that draw `d` of the operation numbered `count` gives. It has no body: nothing in
Lean can say what it is, so a statement about it holds for every value (U3 "any value (a fresh draw at each read)",
U5 "any value for each of those cells, drawn independently"). DESIGN CHOICE, assumptions 3 to 5. -/
opaque Config.freeValue (w : Nat) (count : Nat) (d : Draw) : BitVec w

end Sys2Proof
end

