-- ==== Sys2Proof/Syntax.lean ====
section
/-! DEFINITION. The commands (one constructor per row of spec/opcode_table.json), and the host operations that carry
them, which have no binary encoding and are no rows of the table (R65). -/

namespace Sys2Proof

/-- The commands: the eight legal words of R64 and the two rows of illegal words of R66. -/
inductive Instr where
  /-- `PACK 1`, word `0x001` (R100). -/
  | pack1
  /-- `PACK 2`, word `0x002` (R101). -/
  | pack2
  /-- `PACK 4`, word `0x004` (R102). -/
  | pack4
  /-- `PACK 8`, word `0x008` (R103). -/
  | pack8
  /-- `UNPACK 1`, word `0x101` (R116). -/
  | unpack1
  /-- `UNPACK 2`, word `0x102` (R117). -/
  | unpack2
  /-- `UNPACK 4`, word `0x104` (R118). -/
  | unpack4
  /-- `UNPACK 8`, word `0x108` (R119). -/
  | unpack8
  /-- A PACK word whose `BITS` is not 1, 2, 4 or 8 (R66). -/
  | packUnsupported (bits : Byte)
  /-- An UNPACK word whose `BITS` is not 1, 2, 4 or 8 (R66). -/
  | unpackUnsupported (bits : Byte)
  deriving DecidableEq, Repr

/-- The seven registers (R13), by the names R71 lets a script use. -/
inductive Reg where
  | cmd | len | status | olen | errIndex | errValue | errReq
  deriving DecidableEq, Repr

/-- The six host operations (R65, R125). Index and data are plain numbers, so that an access the spec calls
inexpressible (R135) can be written down and is refused by name. -/
inductive HostOp where
  /-- `RDREG k` (R127). -/
  | rdreg (k : Nat)
  /-- `WRREG k, v` (R128, R129). -/
  | wrreg (k v : Nat)
  /-- `RDE i` (R130). -/
  | rde (i : Nat)
  /-- `WRE i, v` (R131). -/
  | wre (i v : Nat)
  /-- `RDP i` (R132). -/
  | rdp (i : Nat)
  /-- `WRP i, b` (R133). -/
  | wrp (i b : Nat)
  deriving DecidableEq, Repr

/-- What takes a place in the one total order of R51: a host operation, or reset (R171). -/
inductive Event where
  | op (o : HostOp)
  | reset
  deriving DecidableEq, Repr

/-- The pseudo-operations of the host-script language (R72). -/
inductive PseudoOp where
  | pack (b : Byte)
  | unpack (b : Byte)
  | setlen (n : Nat)
  | loadE (vs : List Nat)
  | loadP (bs : List Nat)
  deriving DecidableEq, Repr

end Sys2Proof
end

