-- ==== Sys2Proof/WellFormed.lean ====
section
/-! DEFINITION. Which terms of the command syntax stand for command words. -/

namespace Sys2Proof

/-- `SUPPORTED = {1, 2, 4, 8}` (R7; the set of C1). -/
def supportedWidths : List Byte := [1, 2, 4, 8]

/-- Whether `b` is a supported bit width (R7). -/
def isSupported (b : Byte) : Bool := supportedWidths.contains b

/-- A command term stands for a command word: a row of illegal words carries an unsupported width only (R66). -/
def Instr.wellFormed : Instr → Bool
  | .pack1 => true
  | .pack2 => true
  | .pack4 => true
  | .pack8 => true
  | .unpack1 => true
  | .unpack2 => true
  | .unpack4 => true
  | .unpack8 => true
  | .packUnsupported b => !isSupported b
  | .unpackUnsupported b => !isSupported b

end Sys2Proof
end

