-- ==== Sys2Proof/Decode.lean ====
section
/-! DEFINITION. The decoder of command words (R60, R64, R66), total on all 512 words, the encoder, and the numbers and widths by
which a host operation names a register or a cell (R13, R135). -/

namespace Sys2Proof

/-- The field `OP`, bit 8 of the command word: 0 = PACK, 1 = UNPACK (R60). -/
def opField (w : CmdWord) : BitVec 1 := w.extractLsb' 8 1

/-- The field `BITS`, bits 7:0 of the command word (R60, R61). -/
def bitsField (w : CmdWord) : Byte := w.extractLsb' 0 8

/-- The PACK command of operand `b` (R64, R66). -/
def decodePack (b : Byte) : Instr :=
  if b = 1 then .pack1
  else if b = 2 then .pack2
  else if b = 4 then .pack4
  else if b = 8 then .pack8
  else .packUnsupported b

/-- The UNPACK command of operand `b` (R64, R66). -/
def decodeUnpack (b : Byte) : Instr :=
  if b = 1 then .unpack1
  else if b = 2 then .unpack2
  else if b = 4 then .unpack4
  else if b = 8 then .unpack8
  else .unpackUnsupported b

/-- R64's decoder: `op = w[8]`, `b = w[7:0]`, and R66 for every other `b`. Every one of the 512 words is a command (R68). -/
def decode (w : CmdWord) : Instr :=
  if opField w = 0 then decodePack (bitsField w) else decodeUnpack (bitsField w)

/-- Why a number is no command word. -/
inductive DecodeReject where
  /-- The number does not fit the 9 bits of `CMD` (R60, R135). -/
  | wordTooWide
  deriving DecidableEq, Repr

/-- The decoder on any number: a value of 9 bits is a command word, a wider one is rejected by name (R135). -/
def decodeWord (w : Nat) : Except DecodeReject Instr :=
  if w < 2 ^ 9 then .ok (decode (BitVec.ofNat 9 w)) else .error .wordTooWide

/-- The number an instruction of `nbits` table bits `w` stands for: bits above `nbits` are 0 (assumption 14). -/
def tableWord (nbits w : Nat) : Nat := w % 2 ^ nbits

/-- The instruction the decoder reads from an instruction whose bits are `w`, numbered as the table numbers them.
The one instruction format is one 9-bit word (R60, R69), so there is no byte order in it. -/
def decodeTableWord (nbits w : Nat) : Option Instr :=
  match decodeWord (tableWord nbits w) with
  | .ok i => some i
  | .error _ => none

/-- `OP` of a command, from R60's table. -/
def Instr.op : Instr → BitVec 1
  | .pack1 => 0
  | .pack2 => 0
  | .pack4 => 0
  | .pack8 => 0
  | .packUnsupported _ => 0
  | .unpack1 => 1
  | .unpack2 => 1
  | .unpack4 => 1
  | .unpack8 => 1
  | .unpackUnsupported _ => 1

/-- `BITS` of a command, from R64's table; the operand `bits`, taken as it is (R62). -/
def Instr.bits : Instr → Byte
  | .pack1 => 1
  | .pack2 => 2
  | .pack4 => 4
  | .pack8 => 8
  | .packUnsupported b => b
  | .unpack1 => 1
  | .unpack2 => 2
  | .unpack4 => 4
  | .unpack8 => 8
  | .unpackUnsupported b => b

/-- The encoder: the word of each row of R64's table, and `OP ‖ BITS` for the illegal words (R60, R66). -/
def encode : Instr → CmdWord
  | .pack1 => 0x001
  | .pack2 => 0x002
  | .pack4 => 0x004
  | .pack8 => 0x008
  | .unpack1 => 0x101
  | .unpack2 => 0x102
  | .unpack4 => 0x104
  | .unpack8 => 0x108
  | .packUnsupported b => 0#1 ++ b
  | .unpackUnsupported b => 1#1 ++ b

/-- The register with number `k`; numbers 7 and above do not exist (R13). -/
def Reg.ofNumber : Nat → Option Reg
  | 0 => some .cmd
  | 1 => some .len
  | 2 => some .status
  | 3 => some .olen
  | 4 => some .errIndex
  | 5 => some .errValue
  | 6 => some .errReq
  | _ => none

/-- The number of a register (R13, R71). -/
def Reg.number : Reg → Nat
  | .cmd => 0
  | .len => 1
  | .status => 2
  | .olen => 3
  | .errIndex => 4
  | .errValue => 5
  | .errReq => 6

/-- The width of a register in bits (R13). -/
def Reg.width (c : Config) : Reg → Nat
  | .cmd => 9
  | .len => c.wLen
  | .status => 3
  | .olen => c.wLen
  | .errIndex => c.wLen
  | .errValue => c.wElem
  | .errReq => 4

/-- A host operation that can be expressed: an existing register or cell, and data no wider than the item (R135). -/
def HostOp.expressible (c : Config) : HostOp → Bool
  | .rdreg k => (Reg.ofNumber k).isSome
  | .wrreg k v => match Reg.ofNumber k with
    | none => false
    | some r => decide (v < 2 ^ r.width c)
  | .rde i => decide (i < 2 ^ c.wLen)
  | .wre i v => decide (i < 2 ^ c.wLen) && decide (v < 2 ^ c.wElem)
  | .rdp i => decide (i < 2 ^ c.wLen)
  | .wrp i b => decide (i < 2 ^ c.wLen) && decide (b < 2 ^ 8)

end Sys2Proof
end

