-- ==== Sys2Proof/Machine/State.lean ====
section
/-! DEFINITION. The state of the core (R13 to R22), of the host port that drives it, and the reasons a step can stop. -/

namespace Sys2Proof.Machine

/-- A buffer: the cells written since reset, as (index, value) pairs with strictly rising indices (`Memory.wf`).
A cell that is not listed holds no defined value: nothing has written it since reset (R26, U3). -/
abbrev Memory (α : Type) := List (Nat × α)

/-- Why the machine stops with a fault. The spec gives the core no such stop: its three errors are recorded in
registers and the core goes on (R150, R156), so there is no reason at all. Safe: no step answers a fault. -/
inductive Fault where
  deriving DecidableEq, Repr

/-- Why a step has no meaning. -/
inductive Refusal where
  /-- An instruction that has no meaning in the model: raised by no arm of `exec` here. Safe. -/
  | notModelled (mnemonic : String)
  /-- A host access names a register number above 6 (R135, U6): raised by `RDREG` and `WRREG`. Safe. -/
  | noSuchRegister (number : Nat)
  /-- A host access names a cell index above `2^W_LEN - 1` (R135, U6): raised by `RDE`, `WRE`, `RDP`, `WRP`. Safe. -/
  | noSuchCell (index : Nat)
  /-- A host write carries data wider than the item (R135, U6): raised by `WRREG`, `WRE`, `WRP`. Safe. -/
  | dataTooWide (value : Nat)
  /-- An UNPACK of a supported width whose output does not fit `EBUF` (R134, U4): raised by the four legal UNPACK
  commands. Safe. -/
  | unpackNotAdmitted
  deriving DecidableEq, Repr

/-- The three errors of a command with their reports (R140, R150). -/
inductive CmdError where
  /-- `InvalidBitWidth(value)` (R141). -/
  | invalidBitWidth (value : Byte)
  /-- `MisalignedLength(required)` (R142). -/
  | misalignedLength (required : BitVec 4)
  /-- `ValueOutOfRange(index, value)` (R143). -/
  | valueOutOfRange (index value : Nat)
  deriving DecidableEq, Repr

/-- The whole state. A length, an index or an element value of a width that is a parameter is a number, and `State.Inv`
(Safety.lean) says it fits its width (assumption 6). -/
structure State where
  /-- The open parameters `W_ELEM`, `W_LEN` (R8, R9); no step changes them (assumption 1). -/
  cfg : Config
  /-- Register 0, `CMD`, 9 bits (R14). -/
  cmd : CmdWord
  /-- Register 1, `LEN`, `W_LEN` bits (R15). -/
  len : Nat
  /-- Register 2, `STATUS`, 3 bits: `ERR[1:0] ‖ DONE` (R16). -/
  status : BitVec 3
  /-- Register 3, `OLEN`, `W_LEN` bits (R17). -/
  olen : Nat
  /-- Register 4, `ERR_INDEX`, `W_LEN` bits (R18). -/
  errIndex : Nat
  /-- Register 5, `ERR_VALUE`, `W_ELEM` bits (R19). -/
  errValue : Nat
  /-- Register 6, `ERR_REQ`, 4 bits (R20). -/
  errReq : BitVec 4
  /-- `EBUF`, the element buffer: `2^W_LEN` cells of `W_ELEM` bits (R21). -/
  ebuf : Memory Nat
  /-- `PBUF`, the packed buffer: `2^W_LEN` cells of 8 bits (R22). -/
  pbuf : Memory Byte
  /-- The model's own: the events issued to the core and not performed yet, first one first (R51, assumption 2). -/
  pending : List Event
  /-- The model's own: the values the host's reads returned, first one first (R127, R130, R132, assumption 2). -/
  replies : List Nat
  /-- The model's own: the number of the next operation that draws free values (assumption 4). -/
  draws : Nat
  deriving DecidableEq, Repr

/-- The state right after reset of a core with parameters `c` (R26, R170): every register 0, no cell of either buffer
written. -/
def State.resetOf (c : Config) : State where
  cfg := c
  cmd := 0
  len := 0
  status := 0
  olen := 0
  errIndex := 0
  errValue := 0
  errReq := 0
  ebuf := []
  pbuf := []
  pending := []
  replies := []
  draws := 0

/-- The state right after reset, at the parameters of `Config.default` (assumption 1). -/
def State.reset : State := State.resetOf Config.default

end Sys2Proof.Machine
end

