-- ==== Sys2Proof/Machine/Ops.lean ====
section
/-! DEFINITION. The named operations over buffers and registers: reading and writing cells, the free value of a cell that
holds none, writing the report registers, and raising an error (R150). -/

namespace Sys2Proof.Machine

/-- The value of the latest write to cell `i` since reset, if there is one (R51, U3). -/
def Memory.read {α : Type} : Memory α → Nat → Option α
  | [], _ => none
  | (j, x) :: rest, i => if i = j then some x else Memory.read rest i

/-- The write of `v` to cell `i` (R194 `MemWrite`), keeping the indices strictly rising. -/
def Memory.write {α : Type} : Memory α → Nat → α → Memory α
  | [], i, v => [(i, v)]
  | (j, x) :: rest, i, v =>
    if i < j then (i, v) :: (j, x) :: rest
    else if i = j then (i, v) :: rest
    else (j, x) :: Memory.write rest i v

/-- The writes of a sequence to the cells `start`, `start + 1`, … in index order (R48). -/
def Memory.writeSeq {α : Type} : Memory α → Nat → List α → Memory α
  | m, _, [] => m
  | m, start, v :: vs => Memory.writeSeq (Memory.write m start v) (start + 1) vs

/-- Each written cell of index below `n` takes the value `f` gives for its index; every other cell is left as it is. -/
def Memory.redraw {α : Type} (m : Memory α) (n : Nat) (f : Nat → α) : Memory α :=
  m.map fun c => if c.1 < n then (c.1, f c.1) else c

/-- The canonical form of a buffer: its indices strictly rise. An unlisted cell reads as no value, which no entry can
hold, so there is nothing else to say. -/
abbrev Memory.wf {α : Type} (m : Memory α) : Prop := m.Pairwise fun a b => a.1 < b.1

/-- `CMD <- w` (R129). -/
def State.withCmd (s : State) (w : CmdWord) : State := { s with cmd := w }

/-- `LEN <- n` (R128). -/
def State.withLen (s : State) (n : Nat) : State := { s with len := n }

/-- The five registers every command writes (R13, R25): `STATUS`, `OLEN`, `ERR_INDEX`, `ERR_VALUE`, `ERR_REQ`. -/
def State.withReport (s : State) (status : BitVec 3) (olen errIndex errValue : Nat) (errReq : BitVec 4) : State :=
  { s with status := status, olen := olen, errIndex := errIndex, errValue := errValue, errReq := errReq }

/-- `EBUF` as a whole replaced by `m`. -/
def State.withEbuf (s : State) (m : Memory Nat) : State := { s with ebuf := m }

/-- `PBUF` as a whole replaced by `m`. -/
def State.withPbuf (s : State) (m : Memory Byte) : State := { s with pbuf := m }

/-- The events still to come. -/
def State.withPending (s : State) (es : List Event) : State := { s with pending := es }

/-- One more value returned to the host (R127, R130, R132). -/
def State.withReply (s : State) (v : Nat) : State := { s with replies := s.replies ++ [v] }

/-- This operation's free values are used up: the next operation draws others (assumption 4). -/
def State.nextDraw (s : State) : State := { s with draws := s.draws + 1 }

/-- Reset (R170): every register and buffer as `State.resetOf` says. The parameters, the events that follow the reset in
the total order, what the host has read already and the draw number are no state of the core and stay (assumption 10). -/
def State.resetCore (s : State) : State :=
  { State.resetOf s.cfg with pending := s.pending, replies := s.replies, draws := s.draws }

/-- The element a read of `EBUF[k]` gives: the cell's value, or the free value of draw `d` where nothing has written the
cell since reset (U3, assumption 3). -/
def elementRead (s : State) (d : Draw) (k : Nat) : Nat :=
  match Memory.read s.ebuf k with
  | some v => v
  | none => (Config.freeValue s.cfg.wElem s.draws d).toNat

/-- The byte a read of `PBUF[i]` gives, in the same way. -/
def byteRead (s : State) (d : Draw) (i : Nat) : Byte :=
  match Memory.read s.pbuf i with
  | some v => v
  | none => Config.freeValue 8 s.draws d

/-- `PBUF` after a `ValueOutOfRange` (R99 (d), U5): each written cell below `m` holds any byte, drawn for it alone; a cell
nothing has written stays a cell that holds no defined value; cells at `m` and above keep their contents. -/
def State.redrawPbuf (s : State) (m : Nat) : State :=
  s.withPbuf (Memory.redraw s.pbuf m fun i => Config.freeValue 8 s.draws (.afterRangeError i))

end Sys2Proof.Machine
end

