-- ==== Sys2Proof/Machine/Operands.lean ====
section
/-! DEFINITION. The operands of a command: `packing_ratio_mux` (R80 to R82), the shift of a sub-position (R81), and the
reads of source cells (R90, R110). -/

namespace Sys2Proof.Machine

/-- The outputs of `packing_ratio_mux` (R80). -/
structure MuxOut where
  valid : Bool
  ratio : BitVec 4
  mask : Byte
  deriving DecidableEq, Repr

/-- `packing_ratio_mux` (R80), with the zeros of R82 for every unsupported width. -/
def ratioMux (b : Byte) : MuxOut :=
  if b = 1 then ⟨true, 8, 0x01⟩
  else if b = 2 then ⟨true, 4, 0x03⟩
  else if b = 4 then ⟨true, 2, 0x0F⟩
  else if b = 8 then ⟨true, 1, 0xFF⟩
  else ⟨false, 0, 0x00⟩

/-- `SHIFT(b, j) = b * j` (R81). -/
def shiftAmount (b : Byte) (j : Nat) : Nat := b.toNat * j

/-- PACK's first read of `EBUF[k]`, for the range check: the whole cell (R95). -/
def checkedElement (s : State) (k : Nat) : Nat := elementRead s (.packCheck k) k

/-- PACK's second read of `EBUF[k]`, for the assembly: the cell's bits 7:0 (R93). -/
def assembledElement (s : State) (k : Nat) : Byte := BitVec.ofNat 8 (elementRead s (.packAssemble k) k)

/-- UNPACK's read of `PBUF[i]` (R110). -/
def sourceByte (s : State) (i : Nat) : Byte := byteRead s (.unpackSource i) i

end Sys2Proof.Machine
end

