-- ==== Sys2Proof/Machine/Flags.lean ====
section
/-! DEFINITION. The report registers: `STATUS` and its fields (R16), success (R97, R120) and `raise` (R150), the one
operation by which a command ends in an error. -/

namespace Sys2Proof.Machine

/-- `STATUS.DONE`, bit 0 (R16). -/
def statusDone (st : BitVec 3) : BitVec 1 := st.extractLsb' 0 1

/-- `STATUS.ERR`, bits 2:1 (R16). -/
def statusErr (st : BitVec 3) : BitVec 2 := st.extractLsb' 1 2

/-- The word a command writes to `STATUS`: `ERR` its own outcome, `DONE` 1 (R16). -/
def statusWord (err : BitVec 2) : BitVec 3 := err ++ 1#1

/-- `code(E)` (R140). -/
def CmdError.code : CmdError → BitVec 2
  | .invalidBitWidth _ => 1
  | .misalignedLength _ => 2
  | .valueOutOfRange _ _ => 3

/-- What `ERR_INDEX` holds after the error (R18, R150). -/
def CmdError.reportIndex : CmdError → Nat
  | .invalidBitWidth _ => 0
  | .misalignedLength _ => 0
  | .valueOutOfRange index _ => index

/-- What `ERR_VALUE` holds after the error (R19, R150); `zext` of an 8-bit width is its value, since `W_ELEM >= 8`. -/
def CmdError.reportValue : CmdError → Nat
  | .invalidBitWidth value => value.toNat
  | .misalignedLength _ => 0
  | .valueOutOfRange _ value => value

/-- What `ERR_REQ` holds after the error (R20, R150). -/
def CmdError.reportReq : CmdError → BitVec 4
  | .invalidBitWidth _ => 0
  | .misalignedLength required => required
  | .valueOutOfRange _ _ => 0

/-- The state after `raise E(info)` (R150): the five report registers written, `OLEN` 0, nothing else changed. -/
def raised (e : CmdError) (s : State) : State :=
  (s.withReport (statusWord e.code) 0 e.reportIndex e.reportValue e.reportReq).nextDraw

/-- The state after a success with output length `m` (R97, R120). -/
def succeeded (m : Nat) (s : State) : State := (s.withReport (statusWord 0) m 0 0 0).nextDraw

/-- `raise E(info)` (R150): it ends the command, and the core goes on (R156). -/
def raise (e : CmdError) (s : State) : Host.Outcome State Fault Refusal := .next (raised e s)

/-- The end of a command without an error (R97, R120). -/
def succeed (m : Nat) (s : State) : Host.Outcome State Fault Refusal := .next (succeeded m s)

end Sys2Proof.Machine
end

