-- ==== Sys2Proof/Machine/Pack.lean ====
section
/-! DEFINITION. `bit_packer`: the PACK command (R90) and its four legal words and the row of illegal ones. -/

namespace Sys2Proof.Machine

/-- The lowest `k < LEN` whose cell exceeds `MASK`, compared unsigned over the whole cell (R95, R153). -/
def firstOutOfRange (s : State) (mask : Byte) : Option Nat :=
  (List.range s.len).find? fun k => decide (mask.toNat < checkedElement s k)

/-- One byte assembled from `ratio` elements, starting from zero, the shift and the OR taken at 8 bits (R93, R96). -/
def packByte (b : Byte) (ratio : Nat) (e : Nat → Byte) : Byte :=
  (List.range ratio).foldl (fun byte j => byte ||| (e j <<< shiftAmount b j)) 0x00

/-- The output bytes `0` to `LEN / RATIO - 1` (R92, R93). -/
def packedBytes (b : Byte) (ratio : Nat) (s : State) : List Byte :=
  (List.range (s.len / ratio)).map fun i => packByte b ratio fun j => assembledElement s (i * ratio + j)

/-- PACK of operand `b`, R90's pseudocode from its first line to its last, with the destination of R99. -/
def packCommand (b : Byte) (s : State) : Host.Outcome State Fault Refusal :=
  if (ratioMux b).valid = false then raise (.invalidBitWidth b) s
  else if s.len % (ratioMux b).ratio.toNat ≠ 0 then raise (.misalignedLength (ratioMux b).ratio) s
  else match firstOutOfRange s (ratioMux b).mask with
    | some k => raise (.valueOutOfRange k (checkedElement s k)) (s.redrawPbuf (s.len / (ratioMux b).ratio.toNat))
    | none =>
      succeed (s.len / (ratioMux b).ratio.toNat)
        (s.withPbuf (Memory.writeSeq s.pbuf 0 (packedBytes b (ratioMux b).ratio.toNat s)))

/-- `PACK 1` (R100). -/
def execPack1 (s : State) : Host.Outcome State Fault Refusal := packCommand 1 s

/-- `PACK 2` (R101). -/
def execPack2 (s : State) : Host.Outcome State Fault Refusal := packCommand 2 s

/-- `PACK 4` (R102). -/
def execPack4 (s : State) : Host.Outcome State Fault Refusal := packCommand 4 s

/-- `PACK 8` (R103). -/
def execPack8 (s : State) : Host.Outcome State Fault Refusal := packCommand 8 s

/-- A PACK word of unsupported width: R90 with `VALID = 0` raises `InvalidBitWidth` (R66, R91). -/
def execPackUnsupported (bits : Byte) (s : State) : Host.Outcome State Fault Refusal := packCommand bits s

end Sys2Proof.Machine
end

