-- ==== Sys2Proof/Machine/Unpack.lean ====
section
/-! DEFINITION. `bit_unpacker`: the UNPACK command (R110) and its four legal words and the row of illegal ones. -/

namespace Sys2Proof.Machine

/-- Field `j` of a packed byte: a logical right shift, then the mask (R113). -/
def fieldAt (b : Byte) (mask : Byte) (p : Byte) (j : Nat) : Byte := (p >>> shiftAmount b j) &&& mask

/-- The output elements in index order, each zero-extended: element `e` is field `e mod RATIO` of byte `e / RATIO`
(R43, R113). A source byte is read once, so all its fields come from one value. -/
def unpackedElements (b : Byte) (ratio : Nat) (mask : Byte) (s : State) : List Nat :=
  (List.range (s.len * ratio)).map fun e => (fieldAt b mask (sourceByte s (e / ratio)) (e % ratio)).toNat

/-- UNPACK of operand `b`, R110's pseudocode with the admission of R134. -/
def unpackCommand (b : Byte) (s : State) : Host.Outcome State Fault Refusal :=
  if (ratioMux b).valid = false then raise (.invalidBitWidth b) s
  else if 2 ^ s.cfg.wLen - 1 < s.len * (ratioMux b).ratio.toNat then .refused .unpackNotAdmitted
  else
    succeed (s.len * (ratioMux b).ratio.toNat)
      (s.withEbuf (Memory.writeSeq s.ebuf 0 (unpackedElements b (ratioMux b).ratio.toNat (ratioMux b).mask s)))

/-- `UNPACK 1` (R116). -/
def execUnpack1 (s : State) : Host.Outcome State Fault Refusal := unpackCommand 1 s

/-- `UNPACK 2` (R117). -/
def execUnpack2 (s : State) : Host.Outcome State Fault Refusal := unpackCommand 2 s

/-- `UNPACK 4` (R118). -/
def execUnpack4 (s : State) : Host.Outcome State Fault Refusal := unpackCommand 4 s

/-- `UNPACK 8` (R119). -/
def execUnpack8 (s : State) : Host.Outcome State Fault Refusal := unpackCommand 8 s

/-- An UNPACK word of unsupported width: R110 with `VALID = 0` raises `InvalidBitWidth`, whatever `LEN` is (R66, R111,
R134). -/
def execUnpackUnsupported (bits : Byte) (s : State) : Host.Outcome State Fault Refusal := unpackCommand bits s

end Sys2Proof.Machine
end

