-- ==== Sys2Proof/Machine/Dispatch.lean ====
section
/-! DEFINITION. One arm per command. -/

namespace Sys2Proof.Machine

/-- The execution of one command (R90, R110). -/
def exec (i : Instr) (s : State) : Host.Outcome State Fault Refusal :=
  match i with
  | .pack1 => Sys2Proof.Machine.execPack1 s
  | .pack2 => Sys2Proof.Machine.execPack2 s
  | .pack4 => Sys2Proof.Machine.execPack4 s
  | .pack8 => Sys2Proof.Machine.execPack8 s
  | .unpack1 => Sys2Proof.Machine.execUnpack1 s
  | .unpack2 => Sys2Proof.Machine.execUnpack2 s
  | .unpack4 => Sys2Proof.Machine.execUnpack4 s
  | .unpack8 => Sys2Proof.Machine.execUnpack8 s
  | .packUnsupported bits => Sys2Proof.Machine.execPackUnsupported bits s
  | .unpackUnsupported bits => Sys2Proof.Machine.execUnpackUnsupported bits s

end Sys2Proof.Machine
end

