-- ==== Sys2Proof/Machine/HostPort.lean ====
section
/-! DEFINITION. The host port: the six host operations (R125 to R133), issuing a command (R129), reset as an event (R170,
R171), and the taking of the next event in the total order (R51). -/

namespace Sys2Proof.Machine

/-- The current value of a register (R127). -/
def readReg (s : State) : Reg → Nat
  | .cmd => s.cmd.toNat
  | .len => s.len
  | .status => s.status.toNat
  | .olen => s.olen
  | .errIndex => s.errIndex
  | .errValue => s.errValue
  | .errReq => s.errReq.toNat

/-- Issue a command (R129): the word is stored in `CMD`, then the command it encodes is executed, as one transition. -/
def issueCommand (w : CmdWord) (s : State) : Host.Outcome State Fault Refusal := exec (decode w) (s.withCmd w)

/-- A write of a register: `CMD` issues a command (R129), `LEN` is stored (R128), the others are read-only and the write
changes nothing (R13, R128). -/
def writeReg (r : Reg) (v : Nat) (s : State) : Host.Outcome State Fault Refusal :=
  match r with
  | .cmd => issueCommand (BitVec.ofNat 9 v) s
  | .len => .next (s.withLen v)
  | .status => .next s
  | .olen => .next s
  | .errIndex => .next s
  | .errValue => .next s
  | .errReq => .next s

/-- `RDREG k` (R127); a register number above 6 is refused (R135). -/
def hostRdreg (k : Nat) (s : State) : Host.Outcome State Fault Refusal :=
  match Reg.ofNumber k with
  | none => .refused (.noSuchRegister k)
  | some r => .next (s.withReply (readReg s r))

/-- `WRREG k, v` (R128, R129); a register number above 6 or data wider than the register is refused (R135). -/
def hostWrreg (k v : Nat) (s : State) : Host.Outcome State Fault Refusal :=
  match Reg.ofNumber k with
  | none => .refused (.noSuchRegister k)
  | some r => if v < 2 ^ r.width s.cfg then writeReg r v s else .refused (.dataTooWide v)

/-- The draw number after a host read: used up only where the cell held no defined value (assumption 4). -/
def drawIfUnwritten {α : Type} (cell : Option α) (s : State) : State :=
  match cell with
  | some _ => s
  | none => s.nextDraw

/-- `RDE i` (R130): the cell's value, or a free value of `W_ELEM` bits where nothing has written it (U3). -/
def hostRde (i : Nat) (s : State) : Host.Outcome State Fault Refusal :=
  if i < 2 ^ s.cfg.wLen then
    .next (drawIfUnwritten (Memory.read s.ebuf i) (s.withReply (elementRead s (.hostElement i) i)))
  else .refused (.noSuchCell i)

/-- `WRE i, v` (R131): any value of `W_ELEM` bits is stored whole. -/
def hostWre (i v : Nat) (s : State) : Host.Outcome State Fault Refusal :=
  if i < 2 ^ s.cfg.wLen then
    if v < 2 ^ s.cfg.wElem then .next (s.withEbuf (Memory.write s.ebuf i v)) else .refused (.dataTooWide v)
  else .refused (.noSuchCell i)

/-- `RDP i` (R132): the cell's value, or a free byte where nothing has written it (U3). -/
def hostRdp (i : Nat) (s : State) : Host.Outcome State Fault Refusal :=
  if i < 2 ^ s.cfg.wLen then
    .next (drawIfUnwritten (Memory.read s.pbuf i) (s.withReply (byteRead s (.hostByte i) i).toNat))
  else .refused (.noSuchCell i)

/-- `WRP i, b` (R133). -/
def hostWrp (i b : Nat) (s : State) : Host.Outcome State Fault Refusal :=
  if i < 2 ^ s.cfg.wLen then
    if b < 2 ^ 8 then .next (s.withPbuf (Memory.write s.pbuf i (BitVec.ofNat 8 b))) else .refused (.dataTooWide b)
  else .refused (.noSuchCell i)

/-- One host operation (R125). -/
def performOp (o : HostOp) (s : State) : Host.Outcome State Fault Refusal :=
  match o with
  | .rdreg k => hostRdreg k s
  | .wrreg k v => hostWrreg k v s
  | .rde i => hostRde i s
  | .wre i v => hostWre i v s
  | .rdp i => hostRdp i s
  | .wrp i b => hostWrp i b s

/-- One event of the total order: a host operation, or reset (R51, R171). -/
def performEvent (e : Event) (s : State) : Host.Outcome State Fault Refusal :=
  match e with
  | .op o => performOp o s
  | .reset => .next s.resetCore

/-- Take the next event and perform it, wholly, before any later one (R50, R51). With no event pending the core does
nothing (R3, R170). -/
def takeEvent (s : State) : Host.Outcome State Fault Refusal :=
  match s.pending with
  | [] => .next s
  | e :: rest => performEvent e (s.withPending rest)

/-- `s` with the write of the command word `w` to `CMD` as the host's very next operation (assumption 2). -/
def placeCommand (s : State) (w : Nat) : State := s.withPending (.op (.wrreg 0 w) :: s.pending)

/-- The writes of a sequence to the cells `start`, `start + 1`, … through the host operation `f`. -/
def loadOps (f : Nat → Nat → HostOp) : Nat → List Nat → List HostOp
  | _, [] => []
  | start, v :: vs => f start v :: loadOps f (start + 1) vs

/-- The expansion of a pseudo-operation (R72). -/
def expandPseudo : PseudoOp → List HostOp
  | .pack b => [.wrreg 0 b.toNat]
  | .unpack b => [.wrreg 0 (256 + b.toNat)]
  | .setlen n => [.wrreg 1 n]
  | .loadE vs => loadOps HostOp.wre 0 vs ++ [.wrreg 1 vs.length]
  | .loadP bs => loadOps HostOp.wrp 0 bs ++ [.wrreg 1 bs.length]

/-- A script of pseudo-operations as the events it issues, in order (R71, R72). -/
def scriptEvents (ps : List PseudoOp) : List Event := (ps.flatMap expandPseudo).map Event.op

end Sys2Proof.Machine
end

