-- ==== Sys2Proof/Machine/Step.lean ====
section
/-! DEFINITION. One step of the machine: the next event of the host port's total order (R51). -/

namespace Sys2Proof.Machine

/-- One step: the next event, taken whole (R50). -/
def step (s : State) : Host.Outcome State Fault Refusal := takeEvent s

/-- `s` with the instruction of table bits `w` as the very next command: the core fetches nothing (R11), so the host's
next operation is made the write of that word to `CMD` (assumption 2). -/
def State.withFetchWord (s : State) (nbits w : Nat) : State := placeCommand s (tableWord nbits w)

end Sys2Proof.Machine
end

