-- ==== Sys2Proof/Safety.lean ====
section
/-! DEFINITION. What statements say of a run: the invariants of a state, which cells have been written, and which events
the spec gives a meaning. -/

namespace Sys2Proof.Machine

/-- A state that fits its widths: the parameters as R8 and R9 bound them, every register and every cell within its width,
every cell index within its buffer, and both buffers in canonical form (R13, R21, R22). -/
structure State.Inv (s : State) : Prop where
  cfgOk : s.cfg.Ok
  lenFits : s.len < 2 ^ s.cfg.wLen
  olenFits : s.olen < 2 ^ s.cfg.wLen
  errIndexFits : s.errIndex < 2 ^ s.cfg.wLen
  errValueFits : s.errValue < 2 ^ s.cfg.wElem
  ebufWf : Memory.wf s.ebuf
  ebufFits : ∀ c ∈ s.ebuf, c.1 < 2 ^ s.cfg.wLen ∧ c.2 < 2 ^ s.cfg.wElem
  pbufWf : Memory.wf s.pbuf
  pbufFits : ∀ c ∈ s.pbuf, c.1 < 2 ^ s.cfg.wLen

/-- The report registers agree with `STATUS` and with the command word they report on (R16 to R20, R140, R145, R157). -/
structure State.ReportOk (s : State) : Prop where
  /-- R16: the only values `STATUS` can hold. -/
  legalStatus : s.status ∈ [0b000, 0b001, 0b011, 0b101, 0b111]
  /-- R16, R26: before the first command every other report register is 0, and so is `CMD`. -/
  beforeFirst : statusDone s.status = 0 →
    s.cmd = 0 ∧ s.olen = 0 ∧ s.errIndex = 0 ∧ s.errValue = 0 ∧ s.errReq = 0
  /-- R140, code 0: after a success the width was a supported one and nothing is reported. -/
  afterSuccess : s.status = 0b001 →
    isSupported (bitsField s.cmd) = true ∧ s.errIndex = 0 ∧ s.errValue = 0 ∧ s.errReq = 0
  /-- R140, code 1, and R141: the offending width is in `ERR_VALUE` and still in `CMD.BITS`. -/
  afterInvalidBitWidth : s.status = 0b011 →
    isSupported (bitsField s.cmd) = false ∧ s.errValue = (bitsField s.cmd).toNat ∧ s.errIndex = 0 ∧ s.errReq = 0 ∧
      s.olen = 0
  /-- R140, code 2, and R145: a PACK; the required multiple is `RATIO`, one of 2, 4, 8. -/
  afterMisalignedLength : s.status = 0b101 →
    opField s.cmd = 0 ∧ s.errReq = (ratioMux (bitsField s.cmd)).ratio ∧ s.errReq ∈ [2, 4, 8] ∧ s.errIndex = 0 ∧
      s.errValue = 0 ∧ s.olen = 0
  /-- R140, code 3: a PACK of a supported width; the value reported exceeds `MASK`. -/
  afterValueOutOfRange : s.status = 0b111 →
    opField s.cmd = 0 ∧ isSupported (bitsField s.cmd) = true ∧
      (ratioMux (bitsField s.cmd)).mask.toNat < s.errValue ∧ s.errReq = 0 ∧ s.olen = 0

/-- The four legal PACK commands (R64). -/
def legalPacks : List Instr := [.pack1, .pack2, .pack4, .pack8]

/-- The four legal UNPACK commands (R64). -/
def legalUnpacks : List Instr := [.unpack1, .unpack2, .unpack4, .unpack8]

/-- Each legal PACK with the UNPACK of the same width (R137, R139). -/
def codecPairs : List (Instr × Instr) := [(.pack1, .unpack1), (.pack2, .unpack2), (.pack4, .unpack4), (.pack8, .unpack8)]

/-- `RATIO` of a command (R62, R80). -/
def ratioOf (i : Instr) : Nat := (ratioMux i.bits).ratio.toNat

/-- `MASK` of a command (R62, R80). -/
def maskOf (i : Instr) : Nat := (ratioMux i.bits).mask.toNat

/-- Every element cell below `n` has been written since reset (R175). -/
def State.ElementsWritten (s : State) (n : Nat) : Prop := ∀ k < n, (Memory.read s.ebuf k).isSome

/-- Every packed-byte cell below `n` has been written since reset (R175). -/
def State.BytesWritten (s : State) (n : Nat) : Prop := ∀ i < n, (Memory.read s.pbuf i).isSome

/-- Every element cell below `n` has been written and holds at most `mask` (the precondition of R95 that PACK checks). -/
def State.ElementsInRange (s : State) (n mask : Nat) : Prop := ∀ k < n, ∃ v, Memory.read s.ebuf k = some v ∧ v ≤ mask

/-- Whether the command of word `w` is admitted: all but an UNPACK of supported width whose output does not fit (R134). -/
def admitted (s : State) (w : CmdWord) : Bool :=
  opField w == 0 || !isSupported (bitsField w) ||
    decide (s.len * (ratioMux (bitsField w)).ratio.toNat ≤ 2 ^ s.cfg.wLen - 1)

/-- Whether the spec gives an event a meaning: reset always, a host operation that can be expressed (R135), and of those
that write `CMD` one whose command is admitted (R134). -/
def eventPermitted (s : State) : Event → Bool
  | .reset => true
  | .op (.wrreg k v) => HostOp.expressible s.cfg (.wrreg k v) && (k != 0 || admitted s (BitVec.ofNat 9 v))
  | .op o => HostOp.expressible s.cfg o

/-- A safe step: the machine goes on. -/
def State.StepsOn (s : State) : Prop := ∃ t, step s = .next t

end Sys2Proof.Machine
end

