-- ==== Sys2Proof/Certificates/Slice0/Obligations.lean ====
section
/-! DEFINITION. The statements for the provers. In each, `nextDraw` and `withPending` touch only the model's own fields
(`draws`, `pending`; assumptions 2 and 4), and `withReport st ol ei ev er` writes STATUS, OLEN, ERR_INDEX, ERR_VALUE and
ERR_REQ in that order. An equation `t = (s.withPbuf t.pbuf).withReport …` says that everything it does not name is as
in `s`. -/

open Sys2Proof Sys2Proof.Machine

/-- R64: the eight legal words with their `RATIO` and `MASK`, and every other word by its `OP`. -/
def Obligations.OpcodeTableDecodes : Prop :=
  (∀ row ∈ [((0x001 : CmdWord), Instr.pack1, (8 : BitVec 4), (0x01 : Byte)), (0x002, .pack2, 4, 0x03),
      (0x004, .pack4, 2, 0x0F), (0x008, .pack8, 1, 0xFF), (0x101, .unpack1, 8, 0x01), (0x102, .unpack2, 4, 0x03),
      (0x104, .unpack4, 2, 0x0F), (0x108, .unpack8, 1, 0xFF)],
    decode row.1 = row.2.1 ∧ encode row.2.1 = row.1 ∧
      ratioMux (bitsField row.1) = { valid := true, ratio := row.2.2.1, mask := row.2.2.2 }) ∧
  ∀ w : CmdWord, isSupported (bitsField w) = false →
    decode w = if opField w = 0 then .packUnsupported (bitsField w) else .unpackUnsupported (bitsField w)

/-- R60, R64, R66, R68: a word decodes to a command exactly when it is that command's word, so no bit of a word is
dropped and no word has two meanings. -/
def Obligations.DecodeIsInverseOfEncode : Prop :=
  ∀ (i : Instr) (w : CmdWord), decode w = i ↔ i.wellFormed = true ∧ encode i = w

/-- Command words written out bit by bit from R60's layout, `OP ‖ BITS`, legal and illegal. That a number above 511 is no
command word for `decodeTableWord` is the model's choice (assumption 14). -/
def Obligations.SampleWordsDecode : Prop :=
  decode 0b000000010#9 = .pack2 ∧ decode 0b100001000#9 = .unpack8 ∧ decode 0b000000000#9 = .packUnsupported 0 ∧
  decode 0b000000011#9 = .packUnsupported 3 ∧ decode 0b111111111#9 = .unpackUnsupported 255 ∧
  decodeTableWord 16 0x104 = some .unpack4 ∧ decodeTableWord 16 0x200 = none

/-- R66: there are 504 illegal words, and writing one to `CMD` raises `InvalidBitWidth` and does nothing else, whatever
`LEN` and the buffers are. -/
def Obligations.IllegalWordRaisesInvalidBitWidth : Prop :=
  ((List.range 512).filter fun n => !isSupported (bitsField (BitVec.ofNat 9 n))).length = 504 ∧
  ∀ (s : State) (w : CmdWord) (rest : List Event), isSupported (bitsField w) = false →
    s.pending = .op (.wrreg 0 w.toNat) :: rest →
    step s = .next ((((s.withPending rest).withCmd w).withReport 0b011 0 0 (bitsField w).toNat 0).nextDraw)

/-- R91, R111, R150: the two rows of illegal words complete, with the offending width in `ERR_VALUE`, in every state. -/
def Obligations.UnsupportedWidthCompletes : Prop :=
  ∀ (s : State) (b : Byte), isSupported b = false →
    exec (.packUnsupported b) s = .next ((s.withReport 0b011 0 0 b.toNat 0).nextDraw) ∧
    exec (.unpackUnsupported b) s = .next ((s.withReport 0b011 0 0 b.toNat 0).nextDraw)

/-- R150: what `raise E(info)` does, for each of the three errors: the five report registers, and nothing else. -/
def Obligations.RaiseRecordsError : Prop :=
  ∀ s : State,
    (∀ b, raise (.invalidBitWidth b) s = .next ((s.withReport 0b011 0 0 b.toNat 0).nextDraw)) ∧
    (∀ r, raise (.misalignedLength r) s = .next ((s.withReport 0b101 0 0 0 r).nextDraw)) ∧
    ∀ k v, raise (.valueOutOfRange k v) s = .next ((s.withReport 0b111 0 k v 0).nextDraw)

/-- R80, R82: the table of `packing_ratio_mux`. -/
def Obligations.RatioMuxTable : Prop :=
  ∀ b : Byte, ratioMux b =
    if b = 1 then { valid := true, ratio := 8, mask := 0b00000001 }
    else if b = 2 then { valid := true, ratio := 4, mask := 0b00000011 }
    else if b = 4 then { valid := true, ratio := 2, mask := 0b00001111 }
    else if b = 8 then { valid := true, ratio := 1, mask := 0b11111111 }
    else { valid := false, ratio := 0, mask := 0 }

/-- R83: the identities of the mux outputs at a supported width. -/
def Obligations.MuxIdentities : Prop :=
  ∀ b : Byte, (ratioMux b).valid = true →
    (ratioMux b).ratio.toNat * b.toNat = 8 ∧ (ratioMux b).mask.toNat + 1 = 2 ^ b.toNat ∧
    (∀ k < 8, (ratioMux b).mask.getLsbD k = decide (k < b.toNat)) ∧
    (∀ j < (ratioMux b).ratio.toNat, ∀ k < (ratioMux b).ratio.toNat, j ≠ k →
      ((ratioMux b).mask <<< shiftAmount b j) &&& ((ratioMux b).mask <<< shiftAmount b k) = 0) ∧
    (List.range (ratioMux b).ratio.toNat).foldl (fun acc j => acc ||| ((ratioMux b).mask <<< shiftAmount b j)) 0 = 0xFF

/-- R81: the shift of a sub-position is `b * j`, at most 7, and the last field ends at bit 7 exactly. -/
def Obligations.ShiftStaysInByte : Prop :=
  ∀ b : Byte, isSupported b = true →
    (∀ j < (ratioMux b).ratio.toNat, shiftAmount b j = b.toNat * j ∧ shiftAmount b j ≤ 7) ∧
    shiftAmount b ((ratioMux b).ratio.toNat - 1) = 8 - b.toNat

/-- R26, R170, R171: what reset leaves, at power-on and as an event of the total order: every register 0, no cell with a
defined value. That a reset event keeps the events after it and the parameters is the model's choice (assumption 10). -/
def Obligations.ResetLeavesRegistersZero : Prop :=
  (∀ c : Config, (State.resetOf c).cmd = 0x000 ∧ (State.resetOf c).len = 0 ∧ (State.resetOf c).status = 0b000 ∧
    (State.resetOf c).olen = 0 ∧ (State.resetOf c).errIndex = 0 ∧ (State.resetOf c).errValue = 0 ∧
    (State.resetOf c).errReq = 0 ∧ (State.resetOf c).pending = [] ∧
    ∀ k, Memory.read (State.resetOf c).ebuf k = none ∧ Memory.read (State.resetOf c).pbuf k = none) ∧
  ∀ (s : State) (rest : List Event), s.pending = .reset :: rest →
    ∃ t, step s = .next t ∧ t.cmd = 0x000 ∧ t.len = 0 ∧ t.status = 0b000 ∧ t.olen = 0 ∧ t.errIndex = 0 ∧
      t.errValue = 0 ∧ t.errReq = 0 ∧ t.cfg = s.cfg ∧ t.pending = rest ∧
      ∀ k, Memory.read t.ebuf k = none ∧ Memory.read t.pbuf k = none

/-- The two invariants hold right after reset, at every choice of the parameters that R8 and R9 allow, and so at
`State.reset`, whose `W_LEN` is the model's choice (assumption 1). -/
def Obligations.ResetMeetsInvariants : Prop :=
  (∀ c : Config, c.Ok → (State.resetOf c).Inv ∧ (State.resetOf c).ReportOk) ∧ State.reset.Inv ∧ State.reset.ReportOk

/-- Every step keeps every register and cell within its width and both buffers in canonical form (R13, R21, R22). -/
def Obligations.StepKeepsWidths : Prop := ∀ s t : State, s.Inv → step s = .next t → t.Inv

/-- Every step keeps the report registers in agreement with `STATUS` and `CMD` (R16 to R20, R140, R145, R157). -/
def Obligations.StepKeepsReportsConsistent : Prop :=
  ∀ s t : State, s.ReportOk → step s = .next t → t.ReportOk

/-- R129: a write of `CMD` stores the word and executes the command it encodes, as one step, and the command is PACK or
UNPACK by bit 8. Storing the word before `exec` and not in it is the model's choice (assumption 12). -/
def Obligations.StepRunsIssuedCommand : Prop :=
  ∀ (s : State) (w : CmdWord) (rest : List Event), s.pending = .op (.wrreg 0 w.toNat) :: rest →
    step s = exec (decode w) ((s.withPending rest).withCmd w) ∧
    step s = (if opField w = 0 then packCommand (bitsField w) ((s.withPending rest).withCmd w)
      else unpackCommand (bitsField w) ((s.withPending rest).withCmd w))

/-- A command word placed as the host's next operation is the command the very next step runs, and the decoder reads the
same command from it (assumptions 2 and 14). -/
def Obligations.PlacedWordRunsNext : Prop :=
  ∀ (s : State) (nbits w : Nat), 9 ≤ nbits → w < 2 ^ 9 →
    step (s.withFetchWord nbits w) = exec (decode (BitVec.ofNat 9 w)) (s.withCmd (BitVec.ofNat 9 w)) ∧
    decodeTableWord nbits w = some (decode (BitVec.ofNat 9 w))

/-- R3: the core never acts on its own. The model's choice (assumption 2) is the form: with no event pending a step
answers the same state. -/
def Obligations.IdleCoreChangesNothing : Prop := ∀ s : State, s.pending = [] → step s = .next s

/-- R127: `RDREG k` returns the current value of register `k` and writes nothing. -/
def Obligations.RegisterReadReturnsValue : Prop :=
  ∀ (s : State) (rest : List Event), ∀ p ∈ [(0, s.cmd.toNat), (1, s.len), (2, s.status.toNat), (3, s.olen),
      (4, s.errIndex), (5, s.errValue), (6, s.errReq.toNat)],
    s.pending = .op (.rdreg p.1) :: rest → step s = .next ((s.withPending rest).withReply p.2)

/-- R128: a write of `LEN` stores it and runs no command; a write of a read-only register changes nothing. -/
def Obligations.RegisterWriteStoresLenOnly : Prop :=
  ∀ (s : State) (rest : List Event) (v : Nat),
    (s.pending = .op (.wrreg 1 v) :: rest → v < 2 ^ s.cfg.wLen → step s = .next ((s.withPending rest).withLen v)) ∧
    ∀ p ∈ [(2, 3), (3, s.cfg.wLen), (4, s.cfg.wLen), (5, s.cfg.wElem), (6, 4)],
      s.pending = .op (.wrreg p.1 v) :: rest → v < 2 ^ p.2 → step s = .next (s.withPending rest)

/-- R131: `WRE i, v` stores any value of `W_ELEM` bits whole in `EBUF[i]` and changes nothing else. -/
def Obligations.ElementWriteStoresCell : Prop :=
  ∀ (s : State) (rest : List Event) (i v : Nat), s.pending = .op (.wre i v) :: rest →
    i < 2 ^ s.cfg.wLen → v < 2 ^ s.cfg.wElem →
    ∃ t, step s = .next t ∧ Memory.read t.ebuf i = some v ∧
      (∀ k, k ≠ i → Memory.read t.ebuf k = Memory.read s.ebuf k) ∧ t = (s.withPending rest).withEbuf t.ebuf

/-- R133: `WRP i, b` stores any byte in `PBUF[i]` and changes nothing else. -/
def Obligations.ByteWriteStoresCell : Prop :=
  ∀ (s : State) (rest : List Event) (i : Nat) (b : Byte), s.pending = .op (.wrp i b.toNat) :: rest →
    i < 2 ^ s.cfg.wLen →
    ∃ t, step s = .next t ∧ Memory.read t.pbuf i = some b ∧
      (∀ k, k ≠ i → Memory.read t.pbuf k = Memory.read s.pbuf k) ∧ t = (s.withPending rest).withPbuf t.pbuf

/-- R49, R51, R130, R132: a read of a written cell returns the latest value written and changes nothing. -/
def Obligations.WrittenCellReadReturnsValue : Prop :=
  ∀ (s : State) (rest : List Event) (i : Nat), i < 2 ^ s.cfg.wLen →
    (∀ v, s.pending = .op (.rde i) :: rest → Memory.read s.ebuf i = some v →
      step s = .next ((s.withPending rest).withReply v)) ∧
    (∀ p, s.pending = .op (.rdp i) :: rest → Memory.read s.pbuf i = some p →
      step s = .next ((s.withPending rest).withReply p.toNat))

/-- The model's choice where the spec leaves a value open (U3, assumption 3): a read of a cell nothing has written
completes, returns some value of the cell's width, and changes no state of the core. -/
def Obligations.UnwrittenCellReadCompletes : Prop :=
  ∀ (s : State) (rest : List Event) (i : Nat), i < 2 ^ s.cfg.wLen →
    (s.pending = .op (.rde i) :: rest → Memory.read s.ebuf i = none →
      ∃ v < 2 ^ s.cfg.wElem, step s = .next (((s.withPending rest).withReply v).nextDraw)) ∧
    (s.pending = .op (.rdp i) :: rest → Memory.read s.pbuf i = none →
      ∃ v < 2 ^ 8, step s = .next (((s.withPending rest).withReply v).nextDraw))

/-- R135: a host access that names a register above 6, a cell above `2^W_LEN - 1`, or data wider than the item is
refused. The names of the refusals, and that the cell is named where both the cell and the data are wrong (the fourth
clause holds for every `v`), are the model's choice (assumption 9). -/
def Obligations.InexpressibleAccessRefused : Prop :=
  ∀ (s : State) (rest : List Event) (i v : Nat),
    (6 < i → s.pending = .op (.rdreg i) :: rest → step s = .refused (.noSuchRegister i)) ∧
    (6 < i → s.pending = .op (.wrreg i v) :: rest → step s = .refused (.noSuchRegister i)) ∧
    (∀ r, Reg.ofNumber i = some r → 2 ^ r.width s.cfg ≤ v → s.pending = .op (.wrreg i v) :: rest →
      step s = .refused (.dataTooWide v)) ∧
    (2 ^ s.cfg.wLen ≤ i → ∀ o ∈ [HostOp.rde i, .wre i v, .rdp i, .wrp i v], s.pending = .op o :: rest →
      step s = .refused (.noSuchCell i)) ∧
    (i < 2 ^ s.cfg.wLen → 2 ^ s.cfg.wElem ≤ v → s.pending = .op (.wre i v) :: rest →
      step s = .refused (.dataTooWide v)) ∧
    (i < 2 ^ s.cfg.wLen → 2 ^ 8 ≤ v → s.pending = .op (.wrp i v) :: rest → step s = .refused (.dataTooWide v))

/-- R125, R134, R135: a step goes on exactly when nothing is pending or the spec gives the first event a meaning. The
model's own in this: the idle step goes on (assumption 2), a read of an unwritten cell goes on (assumption 3), a refused
UNPACK does not store `CMD` either (assumption 11). That no step faults holds because `Fault` has no constructor: the
three errors are next states (assumption 8). -/
def Obligations.StepGoesOnIffPermitted : Prop :=
  ∀ s : State, (s.StepsOn ↔ ∀ e rest, s.pending = e :: rest → eventPermitted s e = true) ∧ ∀ r, step s ≠ .fault r

/-- R25, R49: a register or a cell changes only by an event whose row of R25 writes it, and no step changes the
parameters. -/
def Obligations.StepWritesOnlyItsRow : Prop :=
  ∀ s t : State, step s = .next t → s.pending.head? ≠ some .reset →
    t.cfg = s.cfg ∧
    ((t.cmd ≠ s.cmd ∨ t.status ≠ s.status ∨ t.olen ≠ s.olen ∨ t.errIndex ≠ s.errIndex ∨ t.errValue ≠ s.errValue ∨
      t.errReq ≠ s.errReq) → ∃ w, s.pending.head? = some (.op (.wrreg 0 w))) ∧
    (t.len ≠ s.len → s.pending.head? = some (.op (.wrreg 1 t.len))) ∧
    (∀ k, Memory.read t.ebuf k ≠ Memory.read s.ebuf k →
      (∃ v, s.pending.head? = some (.op (.wre k v))) ∨
      ∃ w : CmdWord, s.pending.head? = some (.op (.wrreg 0 w.toNat)) ∧ opField w = 1 ∧ k < t.olen) ∧
    (∀ k, Memory.read t.pbuf k ≠ Memory.read s.pbuf k →
      (∃ v, s.pending.head? = some (.op (.wrp k v))) ∨
      ∃ w : CmdWord, s.pending.head? = some (.op (.wrreg 0 w.toNat)) ∧ opField w = 0 ∧
        k < s.len / (ratioMux (bitsField w)).ratio.toNat)

/-- R23, R25: PACK never writes `EBUF`, UNPACK never writes `PBUF`; and no command changes `LEN`, the parameters or the
host port. That `exec` leaves `CMD` too, which the host port has stored, is the model's choice (assumption 12). -/
def Obligations.CommandNeverWritesSource : Prop :=
  ∀ (i : Instr) (s t : State), exec i s = .next t →
    (i.op = 0 → t.ebuf = s.ebuf) ∧ (i.op = 1 → t.pbuf = s.pbuf) ∧ t.cmd = s.cmd ∧ t.len = s.len ∧ t.cfg = s.cfg ∧
      t.pending = s.pending ∧ t.replies = s.replies

/-- R93, R97, R99 (a): a PACK whose preconditions hold succeeds; field `j` of byte `i` is element `i * RATIO + j`, and
everything but the report registers and `PBUF[0 .. m-1]` is unchanged. -/
def Obligations.PackSucceedsWithFrame : Prop :=
  ∀ i ∈ legalPacks, ∀ s : State, s.len % ratioOf i = 0 → s.ElementsInRange s.len (maskOf i) →
    ∃ t, exec i s = .next t ∧ t = ((s.withPbuf t.pbuf).withReport 0b001 (s.len / ratioOf i) 0 0 0).nextDraw ∧
      (∀ n, s.len / ratioOf i ≤ n → Memory.read t.pbuf n = Memory.read s.pbuf n) ∧
      ∀ n < s.len / ratioOf i, ∃ byte, Memory.read t.pbuf n = some byte ∧
        ∀ j < ratioOf i, ∀ v, Memory.read s.ebuf (n * ratioOf i + j) = some v →
          byte.extractLsb' (i.bits.toNat * j) i.bits.toNat = BitVec.ofNat i.bits.toNat v

/-- R100: `PACK 1`: its two errors, and bit `j` of byte `i` is element `8i + j`. That the error clause needs no other cell
written is the model's choice (assumption 3). -/
def Obligations.PackOneBit : Prop :=
  ∀ s : State,
    (s.len % 8 ≠ 0 → exec .pack1 s = .next ((s.withReport 0b101 0 0 0 8).nextDraw)) ∧
    (s.len % 8 = 0 → (∃ k < s.len, ∃ v, Memory.read s.ebuf k = some v ∧ 1 < v) →
      ∃ t, exec .pack1 s = .next t ∧ t.status = 0b111 ∧ t.olen = 0) ∧
    (s.len % 8 = 0 → s.ElementsInRange s.len 1 →
      ∃ t, exec .pack1 s = .next t ∧ t.status = 0b001 ∧ t.olen = s.len / 8 ∧
        ∀ i < s.len / 8, ∃ byte, Memory.read t.pbuf i = some byte ∧
          ∀ j < 8, ∀ v, Memory.read s.ebuf (8 * i + j) = some v → byte.getLsbD j = v.testBit 0)

/-- R101: `PACK 2`: its two errors, and byte `i` is `e_(4i) + 4 e_(4i+1) + 16 e_(4i+2) + 64 e_(4i+3)`. That the error
clause needs no other cell written is the model's choice (assumption 3). -/
def Obligations.PackTwoBits : Prop :=
  ∀ s : State,
    (s.len % 4 ≠ 0 → exec .pack2 s = .next ((s.withReport 0b101 0 0 0 4).nextDraw)) ∧
    (s.len % 4 = 0 → (∃ k < s.len, ∃ v, Memory.read s.ebuf k = some v ∧ 3 < v) →
      ∃ t, exec .pack2 s = .next t ∧ t.status = 0b111 ∧ t.olen = 0) ∧
    (s.len % 4 = 0 → s.ElementsInRange s.len 3 →
      ∃ t, exec .pack2 s = .next t ∧ t.status = 0b001 ∧ t.olen = s.len / 4 ∧
        ∀ i < s.len / 4, ∃ byte e0 e1 e2 e3, Memory.read t.pbuf i = some byte ∧
          Memory.read s.ebuf (4 * i) = some e0 ∧ Memory.read s.ebuf (4 * i + 1) = some e1 ∧
          Memory.read s.ebuf (4 * i + 2) = some e2 ∧ Memory.read s.ebuf (4 * i + 3) = some e3 ∧
          byte.toNat = e0 + 4 * e1 + 16 * e2 + 64 * e3)

/-- R102: `PACK 4`: its two errors, and byte `i` is `e_(2i) + 16 e_(2i+1)`: the even element is the low nibble. That the
error clause needs no other cell written is the model's choice (assumption 3). -/
def Obligations.PackFourBits : Prop :=
  ∀ s : State,
    (s.len % 2 ≠ 0 → exec .pack4 s = .next ((s.withReport 0b101 0 0 0 2).nextDraw)) ∧
    (s.len % 2 = 0 → (∃ k < s.len, ∃ v, Memory.read s.ebuf k = some v ∧ 15 < v) →
      ∃ t, exec .pack4 s = .next t ∧ t.status = 0b111 ∧ t.olen = 0) ∧
    (s.len % 2 = 0 → s.ElementsInRange s.len 15 →
      ∃ t, exec .pack4 s = .next t ∧ t.status = 0b001 ∧ t.olen = s.len / 2 ∧
        ∀ i < s.len / 2, ∃ byte e0 e1, Memory.read t.pbuf i = some byte ∧
          Memory.read s.ebuf (2 * i) = some e0 ∧ Memory.read s.ebuf (2 * i + 1) = some e1 ∧
          byte.toNat = e0 + 16 * e1)

/-- R103, R146: `PACK 8`: `MisalignedLength` cannot occur, `ValueOutOfRange` only for a cell above 255, which with
`W_ELEM = 8` there is none, and byte `i` is element `i`. That the error clause needs no other cell written is the model's
choice (assumption 3). -/
def Obligations.PackEightBits : Prop :=
  ∀ s : State,
    (∀ t, exec .pack8 s = .next t → t.status ≠ 0b101 ∧ (s.cfg.wElem = 8 → s.Inv → t.status ≠ 0b111)) ∧
    ((∃ k < s.len, ∃ v, Memory.read s.ebuf k = some v ∧ 255 < v) →
      ∃ t, exec .pack8 s = .next t ∧ t.status = 0b111 ∧ t.olen = 0) ∧
    (s.ElementsInRange s.len 255 →
      ∃ t, exec .pack8 s = .next t ∧ t.status = 0b001 ∧ t.olen = s.len ∧
        ∀ i < s.len, ∃ byte e, Memory.read t.pbuf i = some byte ∧ Memory.read s.ebuf i = some e ∧ byte.toNat = e)

/-- R142, R150: a PACK of a supported width and a misaligned length records `MisalignedLength` with the required multiple,
and changes no cell; at `bits = 8` it is never raised (R145). -/
def Obligations.MisalignedLengthRecorded : Prop :=
  (∀ i ∈ [Instr.pack1, .pack2, .pack4], ∀ s : State, s.len % ratioOf i ≠ 0 →
    exec i s = .next ((s.withReport 0b101 0 0 0 (BitVec.ofNat 4 (ratioOf i))).nextDraw)) ∧
  ∀ s t : State, exec .pack8 s = .next t → t.status ≠ 0b101

/-- R143: a PACK of a supported width and an aligned length with an element above `MASK` records `ValueOutOfRange` with
the lowest such index and that cell's whole value. -/
def Obligations.ValueOutOfRangeRecorded : Prop :=
  ∀ i ∈ legalPacks, ∀ (s : State) (k v : Nat), s.len % ratioOf i = 0 → k < s.len →
    Memory.read s.ebuf k = some v → maskOf i < v → s.ElementsInRange k (maskOf i) →
    ∃ t, exec i s = .next t ∧ t = ((s.withPbuf t.pbuf).withReport 0b111 0 k v 0).nextDraw

/-- What `PBUF` holds after a `ValueOutOfRange`: cells at `LEN / RATIO` and above are unchanged (R99 (d)); the model's
choice (U5, assumption 5) is that a written cell below holds some byte and an unwritten one stays unwritten. -/
def Obligations.RangeErrorKeepsCellsAbove : Prop :=
  ∀ i ∈ legalPacks, ∀ s t : State, exec i s = .next t → t.status = 0b111 →
    (∀ n, s.len / ratioOf i ≤ n → Memory.read t.pbuf n = Memory.read s.pbuf n) ∧
    ∀ n, (Memory.read t.pbuf n).isSome = (Memory.read s.pbuf n).isSome

/-- R153: which error a PACK raises when several preconditions fail: `InvalidBitWidth`, then `MisalignedLength`, then
`ValueOutOfRange` at the lowest index; and it succeeds when none fails. -/
def Obligations.PackErrorPriority : Prop :=
  ∀ (i : Instr) (s : State), i.op = 0 → s.ElementsWritten s.len →
    ∃ t, exec i s = .next t ∧
      (isSupported i.bits = false → statusErr t.status = 1) ∧
      (isSupported i.bits = true → s.len % ratioOf i ≠ 0 → statusErr t.status = 2) ∧
      (isSupported i.bits = true → s.len % ratioOf i = 0 → ∀ k < s.len,
        (∃ v, Memory.read s.ebuf k = some v ∧ maskOf i < v) → s.ElementsInRange k (maskOf i) →
          statusErr t.status = 3 ∧ t.errIndex = k) ∧
      (isSupported i.bits = true → s.len % ratioOf i = 0 → s.ElementsInRange s.len (maskOf i) →
        statusErr t.status = 0)

/-- R134, R150: PACK is always admitted: it completes in every state, cells never written included (the choice between
success and `ValueOutOfRange` is then open, R175, assumption 3), and an error leaves `OLEN` 0. -/
def Obligations.PackAlwaysCompletes : Prop :=
  ∀ (i : Instr) (s : State), i.op = 0 →
    ∃ t, exec i s = .next t ∧ t.status ∈ [0b001, 0b011, 0b101, 0b111] ∧ (t.status ≠ 0b001 → t.olen = 0)

/-- R96: no one bit is shifted out, and the OR of the shifted fields equals their arithmetic sum. -/
def Obligations.PackedByteIsSum : Prop :=
  ∀ (b : Byte) (e : Nat → Byte), isSupported b = true →
    (∀ j < (ratioMux b).ratio.toNat, (e j).toNat ≤ (ratioMux b).mask.toNat) →
    (∀ j < (ratioMux b).ratio.toNat, (e j <<< shiftAmount b j).toNat = (e j).toNat * 2 ^ (b.toNat * j)) ∧
    (packByte b (ratioMux b).ratio.toNat e).toNat =
      ((List.range (ratioMux b).ratio.toNat).map fun j => (e j).toNat * 2 ^ (b.toNat * j)).sum

/-- R6, R192: the outcome of a command is a function of the operand, `LEN` and the source cells below `LEN`: two states
that agree on those (and on the parameters) get the same report and the same result cells, whatever the destination
buffer, the earlier reports and the other cells hold. -/
def Obligations.OutcomeDependsOnInputsOnly : Prop :=
  ∀ (i : Instr) (s s' t : State), s'.cfg = s.cfg → s'.len = s.len →
    (i.op = 0 → s.ElementsWritten s.len ∧ ∀ k < s.len, Memory.read s'.ebuf k = Memory.read s.ebuf k) →
    (i.op = 1 → s.BytesWritten s.len ∧ ∀ k < s.len, Memory.read s'.pbuf k = Memory.read s.pbuf k) →
    exec i s = .next t →
    ∃ t', exec i s' = .next t' ∧ t'.status = t.status ∧ t'.olen = t.olen ∧ t'.errIndex = t.errIndex ∧
      t'.errValue = t.errValue ∧ t'.errReq = t.errReq ∧
      (i.op = 0 → ∀ k < t.olen, Memory.read t'.pbuf k = Memory.read t.pbuf k) ∧
      (i.op = 1 → ∀ k < t.olen, Memory.read t'.ebuf k = Memory.read t.ebuf k)

/-- R116: `UNPACK 1`: element `8i + j` is bit `j` of byte `i`. That it completes over unwritten
source cells is the model's choice (assumption 3). -/
def Obligations.UnpackOneBit : Prop :=
  ∀ s : State, s.len * 8 ≤ 2 ^ s.cfg.wLen - 1 →
    ∃ t, exec .unpack1 s = .next t ∧ t.status = 0b001 ∧ t.olen = 8 * s.len ∧
      ∀ i < s.len, ∀ p, Memory.read s.pbuf i = some p → ∀ j < 8,
        Memory.read t.ebuf (8 * i + j) = some (p.getLsbD j).toNat

/-- R117: `UNPACK 2`: the four elements of byte `i` are its bits 1:0, 3:2, 5:4 and 7:6. That it completes over unwritten
source cells is the model's choice (assumption 3). -/
def Obligations.UnpackTwoBits : Prop :=
  ∀ s : State, s.len * 4 ≤ 2 ^ s.cfg.wLen - 1 →
    ∃ t, exec .unpack2 s = .next t ∧ t.status = 0b001 ∧ t.olen = 4 * s.len ∧
      ∀ i < s.len, ∀ p, Memory.read s.pbuf i = some p →
        Memory.read t.ebuf (4 * i) = some (p.extractLsb 1 0).toNat ∧
        Memory.read t.ebuf (4 * i + 1) = some (p.extractLsb 3 2).toNat ∧
        Memory.read t.ebuf (4 * i + 2) = some (p.extractLsb 5 4).toNat ∧
        Memory.read t.ebuf (4 * i + 3) = some (p.extractLsb 7 6).toNat

/-- R118: `UNPACK 4`: the two elements of byte `i` are its low and its high nibble. That it completes over unwritten
source cells is the model's choice (assumption 3). -/
def Obligations.UnpackFourBits : Prop :=
  ∀ s : State, s.len * 2 ≤ 2 ^ s.cfg.wLen - 1 →
    ∃ t, exec .unpack4 s = .next t ∧ t.status = 0b001 ∧ t.olen = 2 * s.len ∧
      ∀ i < s.len, ∀ p, Memory.read s.pbuf i = some p →
        Memory.read t.ebuf (2 * i) = some (p.extractLsb 3 0).toNat ∧
        Memory.read t.ebuf (2 * i + 1) = some (p.extractLsb 7 4).toNat

/-- R119: `UNPACK 8`: element `i` is byte `i`; at every `LEN` a register can hold it is admitted (R134). That it completes
over unwritten source cells is the model's choice (assumption 3). -/
def Obligations.UnpackEightBits : Prop :=
  ∀ s : State, s.len < 2 ^ s.cfg.wLen →
    ∃ t, exec .unpack8 s = .next t ∧ t.status = 0b001 ∧ t.olen = s.len ∧
      ∀ i < s.len, ∀ p, Memory.read s.pbuf i = some p → Memory.read t.ebuf i = some p.toNat

/-- R113, R114 (a), R120: an admitted UNPACK of a supported width succeeds; every element it writes is in `0` to `MASK`,
and everything but the report registers and `EBUF[0 .. m-1]` is unchanged. That it completes over unwritten
source cells is the model's choice (assumption 3). -/
def Obligations.UnpackSucceedsWithFrame : Prop :=
  ∀ i ∈ legalUnpacks, ∀ s : State, s.len * ratioOf i ≤ 2 ^ s.cfg.wLen - 1 →
    ∃ t, exec i s = .next t ∧ t = ((s.withEbuf t.ebuf).withReport 0b001 (s.len * ratioOf i) 0 0 0).nextDraw ∧
      (∀ n, s.len * ratioOf i ≤ n → Memory.read t.ebuf n = Memory.read s.ebuf n) ∧
      ∀ n < s.len * ratioOf i, ∃ v ≤ maskOf i, Memory.read t.ebuf n = some v

/-- R134: an UNPACK of a supported width is refused as not admitted exactly when its output would not fit `EBUF` (that a
fitting one completes is `UnpackSucceedsWithFrame`); one of unsupported width completes, and so does every PACK.
That a PACK over unwritten source cells answers a next state, where U3 allows a refusal too, is the model's choice
(assumption 3). -/
def Obligations.UnpackAdmission : Prop :=
  ∀ s : State,
    (∀ i ∈ legalUnpacks, exec i s = .refused .unpackNotAdmitted ↔ 2 ^ s.cfg.wLen - 1 < s.len * ratioOf i) ∧
    (∀ b, isSupported b = false → ∃ t, exec (.unpackUnsupported b) s = .next t ∧ t.status = 0b011) ∧
    ∀ i : Instr, i.op = 0 → ∃ t, exec i s = .next t

/-- R144: UNPACK raises `InvalidBitWidth`, exactly when its width is unsupported, and nothing else. -/
def Obligations.UnpackRaisesInvalidBitWidthOnly : Prop :=
  ∀ (i : Instr) (s t : State), i.op = 1 → exec i s = .next t →
    t.status = if isSupported i.bits then 0b001 else 0b011

/-- R137, R193: the round trip. A PACK of valid elements, `LEN` set to the `OLEN` it leaves, and an UNPACK of the same
width both succeed, and the elements are the original ones. -/
def Obligations.PackThenUnpackRestores : Prop :=
  ∀ p ∈ codecPairs, ∀ s : State, s.len < 2 ^ s.cfg.wLen → s.len % ratioOf p.1 = 0 →
    s.ElementsInRange s.len (maskOf p.1) →
    ∃ t u, exec p.1 s = .next t ∧ t.status = 0b001 ∧ exec p.2 (t.withLen t.olen) = .next u ∧ u.status = 0b001 ∧
      u.olen = s.len ∧ (∀ k < s.len, Memory.read u.ebuf k = Memory.read s.ebuf k) ∧
      ∀ n, Memory.read u.pbuf n = Memory.read t.pbuf n

/-- R139: unpack then pack gives back every byte sequence, whether or not a PACK produced it. -/
def Obligations.UnpackThenPackRestores : Prop :=
  ∀ p ∈ codecPairs, ∀ s : State, s.len * ratioOf p.2 ≤ 2 ^ s.cfg.wLen - 1 → s.BytesWritten s.len →
    ∃ t u, exec p.2 s = .next t ∧ t.status = 0b001 ∧ exec p.1 (t.withLen t.olen) = .next u ∧ u.status = 0b001 ∧
      u.olen = s.len ∧ ∀ n, Memory.read u.pbuf n = Memory.read s.pbuf n

/-- R138: the length law: a successful PACK leaves `OLEN = LEN * bits / 8`, a successful UNPACK `OLEN = LEN * 8 / bits`. -/
def Obligations.LengthLaw : Prop :=
  ∀ (i : Instr) (s t : State), exec i s = .next t → t.status = 0b001 →
    (i.op = 0 → t.olen * 8 = s.len * i.bits.toNat) ∧ (i.op = 1 → t.olen * i.bits.toNat = s.len * 8)

/-- R190, R98, R115: the empty sequence packs and unpacks to the empty sequence at every supported width. -/
def Obligations.EmptyInputSucceeds : Prop :=
  ∀ i ∈ legalPacks ++ legalUnpacks, ∀ s : State, s.len = 0 →
    exec i s = .next ((s.withReport 0b001 0 0 0 0).nextDraw)
end

