-- ==== Sys2Proof/Laws/Codec.lean ====
section
/-! SUPPORT. The laws of the mux, and of one packed byte: a field read back is the element written, and a byte assembled
from its own fields is the byte. -/

namespace Sys2Proof.Machine

/-- A supported width is one of the four (R7). -/
theorem supported_cases {b : Byte} (h : isSupported b = true) : b = 1 ∨ b = 2 ∨ b = 4 ∨ b = 8 := by
  simpa [isSupported, supportedWidths] using h

/-- `VALID` is membership in `SUPPORTED` (R80, R82). -/
theorem ratioMux_valid (b : Byte) : (ratioMux b).valid = isSupported b := by
  unfold ratioMux isSupported supportedWidths
  split_ifs <;> simp_all

/-- What the rules of a command need of the mux at a supported width: `RATIO * b = 8` (R83), the ratio is not zero, and
`MASK` has exactly its `b` low bits set. -/
theorem ratioMux_supported {b : Byte} (h : isSupported b = true) :
    (ratioMux b).ratio.toNat * b.toNat = 8 ∧ 0 < (ratioMux b).ratio.toNat ∧ 0 < b.toNat ∧
      (ratioMux b).mask.toNat = 2 ^ b.toNat - 1 ∧
      ∀ i < 8, (ratioMux b).mask.getLsbD i = decide (i < b.toNat) := by
  rcases supported_cases h with rfl | rfl | rfl | rfl <;> decide

/-- A byte of at most `MASK` has no bit set at `b` and above. -/
theorem getLsbD_of_le_mask {b v : Byte} (h : isSupported b = true) (hv : v.toNat ≤ (ratioMux b).mask.toNat) {i : Nat}
    (hi : b.toNat ≤ i) : v.getLsbD i = false := by
  obtain ⟨-, -, -, hmask, -⟩ := ratioMux_supported h
  have hpos : 0 < 2 ^ b.toNat := Nat.two_pow_pos _
  exact Nat.testBit_lt_two_pow (Nat.lt_of_lt_of_le (by omega) (Nat.pow_le_pow_right (by omega) hi))

/-- Bit `i` of an assembled byte (R93): some element has it set at its shifted place. -/
theorem packByte_bit (b : Byte) (ratio : Nat) (e : Nat → Byte) {i : Nat} (hi : i < 8) :
    (packByte b ratio e).getLsbD i = true ↔
      ∃ j < ratio, b.toNat * j ≤ i ∧ (e j).getLsbD (i - b.toNat * j) = true := by
  induction ratio with
  | zero => simp [packByte]
  | succ n ih =>
    have hstep : packByte b (n + 1) e = packByte b n e ||| (e n <<< shiftAmount b n) := by
      simp [packByte, List.range_succ]
    rw [hstep, BitVec.getLsbD_or, Bool.or_eq_true, ih]
    simp only [shiftAmount, BitVec.getLsbD_shiftLeft, hi, decide_true, Bool.true_and, Bool.and_eq_true,
      Bool.not_eq_true', decide_eq_false_iff_not, Nat.not_lt]
    constructor
    · rintro (⟨j, hj, h⟩ | h)
      · exact ⟨j, by omega, h⟩
      · exact ⟨n, by omega, h⟩
    · rintro ⟨j, hj, h⟩
      rcases Nat.lt_succ_iff_lt_or_eq.mp hj with hj | rfl
      · exact .inl ⟨j, hj, h⟩
      · exact .inr h

/-- Bit `i` of field `j` (R113). -/
theorem fieldAt_bit {b : Byte} (h : isSupported b = true) (p : Byte) (j : Nat) {i : Nat} (hi : i < 8) :
    (fieldAt b (ratioMux b).mask p j).getLsbD i = (p.getLsbD (b.toNat * j + i) && decide (i < b.toNat)) := by
  obtain ⟨-, -, -, -, hbit⟩ := ratioMux_supported h
  simp [fieldAt, shiftAmount, BitVec.getLsbD_and, BitVec.getLsbD_ushiftRight, hbit i hi]

/-- A field is at most `MASK` (R113). -/
theorem fieldAt_le (b mask p : Byte) (j : Nat) : (fieldAt b mask p j).toNat ≤ mask.toNat := by
  simp only [fieldAt, BitVec.toNat_and]; exact Nat.and_le_right

/-- Field `j` of an assembled byte is element `j`, when every element is in range (R41, R83, R137). -/
theorem fieldAt_packByte {b : Byte} (h : isSupported b = true) {e : Nat → Byte}
    (he : ∀ j < (ratioMux b).ratio.toNat, (e j).toNat ≤ (ratioMux b).mask.toNat) {j : Nat}
    (hj : j < (ratioMux b).ratio.toNat) :
    fieldAt b (ratioMux b).mask (packByte b (ratioMux b).ratio.toNat e) j = e j := by
  obtain ⟨hrb, -, hb, -, -⟩ := ratioMux_supported h
  apply BitVec.eq_of_getLsbD_eq
  intro i hi
  rw [fieldAt_bit h _ _ hi]
  by_cases hib : i < b.toNat
  · have hle : b.toNat * j + i < 8 := by nlinarith
    simp only [hib, decide_true, Bool.and_true]
    rw [Bool.eq_iff_iff, packByte_bit _ _ _ hle]
    constructor
    · rintro ⟨j', hj', hle', hbit⟩
      have hjj : j' ≤ j := by
        by_contra hc
        have : b.toNat * (j + 1) ≤ b.toNat * j' := Nat.mul_le_mul_left _ (by omega)
        rw [Nat.mul_add] at this; omega
      rcases Nat.eq_or_lt_of_le hjj with rfl | hlt
      · simpa using hbit
      · have : b.toNat * (j' + 1) ≤ b.toNat * j := Nat.mul_le_mul_left _ (by omega)
        rw [Nat.mul_add] at this
        rw [getLsbD_of_le_mask h (he j' hj') (by omega)] at hbit
        exact absurd hbit (by simp)
    · intro hbit; exact ⟨j, hj, by omega, by simpa using hbit⟩
  · rw [getLsbD_of_le_mask h (he j hj) (by omega)]; simp [hib]

/-- A byte assembled from its own fields is the byte (R83, R139). -/
theorem packByte_fieldAt {b : Byte} (h : isSupported b = true) (p : Byte) :
    packByte b (ratioMux b).ratio.toNat (fun j => fieldAt b (ratioMux b).mask p j) = p := by
  obtain ⟨hrb, -, hb, -, -⟩ := ratioMux_supported h
  apply BitVec.eq_of_getLsbD_eq
  intro i hi
  rw [Bool.eq_iff_iff, packByte_bit _ _ _ hi]
  constructor
  · rintro ⟨j, hj, hle, hbit⟩
    rw [fieldAt_bit h _ _ (by omega), Bool.and_eq_true] at hbit
    have : b.toNat * j + (i - b.toNat * j) = i := by omega
    rw [this] at hbit; exact hbit.1
  · intro hbit
    have hdiv : b.toNat * (i / b.toNat) + i % b.toNat = i := Nat.div_add_mod i b.toNat
    have hmod : i % b.toNat < b.toNat := Nat.mod_lt _ hb
    refine ⟨i / b.toNat, ?_, by omega, ?_⟩
    · rw [Nat.div_lt_iff_lt_mul hb, hrb]; exact hi
    · rw [fieldAt_bit h _ _ (by omega)]
      have : b.toNat * (i / b.toNat) + (i - b.toNat * (i / b.toNat)) = i := by omega
      simp [this, hbit]; omega

end Sys2Proof.Machine
end

