-- ==== Sys2Proof/Laws/Encoding.lean ====
section
/-! SUPPORT. The fields of a command word through the encoder and the decoder, one lemma per function. -/

namespace Sys2Proof

theorem ne_of_unsupported {b : Byte} (h : isSupported b = false) : b ≠ 1 ∧ b ≠ 2 ∧ b ≠ 4 ∧ b ≠ 8 := by
  refine ⟨?_, ?_, ?_, ?_⟩ <;> rintro rfl <;> exact absurd h (by decide)

theorem decodePack_unsupported {b : Byte} (h : isSupported b = false) : decodePack b = .packUnsupported b := by
  obtain ⟨h1, h2, h4, h8⟩ := ne_of_unsupported h
  rw [decodePack, if_neg h1, if_neg h2, if_neg h4, if_neg h8]

theorem decodeUnpack_unsupported {b : Byte} (h : isSupported b = false) : decodeUnpack b = .unpackUnsupported b := by
  obtain ⟨h1, h2, h4, h8⟩ := ne_of_unsupported h
  rw [decodeUnpack, if_neg h1, if_neg h2, if_neg h4, if_neg h8]

/-- A word's bit 8 is 0 or 1. -/
theorem opField_cases (w : CmdWord) : opField w = 0 ∨ opField w = 1 := by
  generalize opField w = o
  revert o; decide

/-- A command word is its two fields (R60). -/
theorem word_eq_of_fields {w w' : CmdWord} (hop : opField w = opField w') (hbits : bitsField w = bitsField w') :
    w = w' := by
  apply BitVec.eq_of_getLsbD_eq
  intro i hi
  by_cases h : i < 8
  · simpa [bitsField, h] using congrArg (fun v => v.getLsbD i) hbits
  · obtain rfl : i = 8 := by omega
    simpa [opField] using congrArg (fun v => v.getLsbD 0) hop

theorem opField_append (o : BitVec 1) (b : Byte) : opField (o ++ b) = o := by
  revert o; intro o
  apply BitVec.eq_of_getLsbD_eq
  intro i hi
  obtain rfl : i = 0 := by omega
  simp [opField]
  rw [← BitVec.getLsbD_eq_getElem, BitVec.getLsbD_append]; simp

theorem bitsField_append (o : BitVec 1) (b : Byte) : bitsField (o ++ b) = b := by
  apply BitVec.eq_of_getLsbD_eq
  intro i hi
  rw [bitsField, BitVec.getLsbD_extractLsb', Nat.zero_add, BitVec.getLsbD_append]
  simp [hi]

/-- The encoder puts the operation in bit 8 and the operand in bits 7:0 (R60). -/
theorem encode_fields (i : Instr) : opField (encode i) = i.op ∧ bitsField (encode i) = i.bits := by
  cases i
  case packUnsupported b => exact ⟨opField_append _ _, bitsField_append _ _⟩
  case unpackUnsupported b => exact ⟨opField_append _ _, bitsField_append _ _⟩
  all_goals decide

theorem decodePack_fields (b : Byte) :
    (decodePack b).wellFormed = true ∧ (decodePack b).op = 0 ∧ (decodePack b).bits = b := by
  cases h : isSupported b with
  | false => rw [decodePack_unsupported h]; simp [Instr.wellFormed, Instr.op, Instr.bits, h]
  | true => rcases Machine.supported_cases h with rfl | rfl | rfl | rfl <;> decide

theorem decodeUnpack_fields (b : Byte) :
    (decodeUnpack b).wellFormed = true ∧ (decodeUnpack b).op = 1 ∧ (decodeUnpack b).bits = b := by
  cases h : isSupported b with
  | false => rw [decodeUnpack_unsupported h]; simp [Instr.wellFormed, Instr.op, Instr.bits, h]
  | true => rcases Machine.supported_cases h with rfl | rfl | rfl | rfl <;> decide

/-- The decoder reads the operation from bit 8 and the operand from bits 7:0, and gives a well-formed command (R64). -/
theorem decode_fields (w : CmdWord) :
    (decode w).wellFormed = true ∧ (decode w).op = opField w ∧ (decode w).bits = bitsField w := by
  rcases opField_cases w with h | h
  · rw [decode, if_pos h, h]; exact decodePack_fields _
  · rw [decode, if_neg (by rw [h]; decide), h]; exact decodeUnpack_fields _

end Sys2Proof
end

