-- ==== Sys2Proof/Laws/Memory.lean ====
section
/-! SUPPORT. The laws of a buffer: what a read gives after a write, and that every operation keeps the canonical form. -/

namespace Sys2Proof.Machine

variable {α : Type}

@[simp] theorem Memory.read_nil (i : Nat) : Memory.read ([] : Memory α) i = none := rfl

@[simp] theorem Memory.read_write_same (m : Memory α) (i : Nat) (v : α) :
    Memory.read (Memory.write m i v) i = some v := by
  induction m with
  | nil => simp [Memory.write, Memory.read]
  | cons c rest ih =>
    obtain ⟨j, x⟩ := c
    by_cases h : i < j
    · simp [Memory.write, Memory.read, h]
    · by_cases h' : i = j
      · simp [Memory.write, Memory.read, h']
      · simp [Memory.write, Memory.read, h, h', ih]

@[simp] theorem Memory.read_write_other (m : Memory α) {i k : Nat} (v : α) (hk : k ≠ i) :
    Memory.read (Memory.write m i v) k = Memory.read m k := by
  induction m with
  | nil => simp [Memory.write, Memory.read, hk]
  | cons c rest ih =>
    obtain ⟨j, x⟩ := c
    by_cases h : i < j
    · simp [Memory.write, Memory.read, h, hk]
    · by_cases h' : i = j
      · subst h'; simp [Memory.write, Memory.read, hk]
      · simp [Memory.write, Memory.read, h, h', ih]

/-- A read after writing a sequence: inside it the item written, outside it the former contents. -/
theorem Memory.read_writeSeq (m : Memory α) (start : Nat) (vs : List α) (k : Nat) :
    Memory.read (Memory.writeSeq m start vs) k =
      if h : start ≤ k ∧ k < start + vs.length then some (vs[k - start]'(by omega)) else Memory.read m k := by
  induction vs generalizing m start with
  | nil => simp only [Memory.writeSeq, List.length_nil]; rw [dif_neg (by omega)]
  | cons v vs ih =>
    rw [Memory.writeSeq, ih]
    simp only [List.length_cons]
    by_cases h : start + 1 ≤ k ∧ k < start + 1 + vs.length
    · rw [dif_pos h, dif_pos (by omega)]
      have : k - start = (k - (start + 1)) + 1 := by omega
      simp [this]
    · rw [dif_neg h]
      by_cases hk : k = start
      · subst hk
        rw [dif_pos (by omega)]; simp
      · rw [dif_neg (by omega), Memory.read_write_other _ _ hk]

/-- The item written at place `k` of a sequence stored from cell 0. -/
theorem Memory.read_writeSeq_zero (m : Memory α) (vs : List α) {k : Nat} (hk : k < vs.length) :
    Memory.read (Memory.writeSeq m 0 vs) k = some vs[k] := by
  rw [Memory.read_writeSeq, dif_pos (by omega)]; simp

/-- Cells past a sequence stored from cell 0 keep their contents. -/
theorem Memory.read_writeSeq_above (m : Memory α) (vs : List α) {k : Nat} (hk : vs.length ≤ k) :
    Memory.read (Memory.writeSeq m 0 vs) k = Memory.read m k := by
  rw [Memory.read_writeSeq, dif_neg (by omega)]

/-- A read after a redraw of the cells below `n`. -/
theorem Memory.read_redraw (m : Memory α) (n : Nat) (f : Nat → α) (k : Nat) :
    Memory.read (Memory.redraw m n f) k = (Memory.read m k).map fun v => if k < n then f k else v := by
  induction m with
  | nil => rfl
  | cons c rest ih =>
    obtain ⟨j, x⟩ := c
    have hcons : Memory.redraw ((j, x) :: rest) n f = (j, if j < n then f j else x) :: Memory.redraw rest n f := by
      by_cases hj : j < n <;> simp [Memory.redraw, hj]
    rw [hcons]
    by_cases h : k = j
    · subst h; simp [Memory.read]
    · simp [Memory.read, h, ih]

theorem Memory.read_redraw_above (m : Memory α) {n : Nat} (f : Nat → α) {k : Nat} (hk : n ≤ k) :
    Memory.read (Memory.redraw m n f) k = Memory.read m k := by
  rw [Memory.read_redraw]; simp [Nat.not_lt.mpr hk]

/-- What a read gives is an entry. -/
theorem Memory.mem_of_read {m : Memory α} {i : Nat} {v : α} (h : Memory.read m i = some v) : (i, v) ∈ m := by
  induction m with
  | nil => simp at h
  | cons c rest ih =>
    obtain ⟨j, x⟩ := c
    by_cases hij : i = j
    · simp only [Memory.read, hij, if_true, Option.some.injEq] at h; simp [hij, h]
    · simp only [Memory.read, if_neg hij] at h; exact List.mem_cons_of_mem _ (ih h)

/-- In canonical form a read gives the entry. -/
theorem Memory.read_of_mem {m : Memory α} (hm : Memory.wf m) {i : Nat} {v : α} (h : (i, v) ∈ m) :
    Memory.read m i = some v := by
  induction m with
  | nil => simp at h
  | cons c rest ih =>
    obtain ⟨j, x⟩ := c
    rw [Memory.wf, List.pairwise_cons] at hm
    rcases List.mem_cons.mp h with h | h
    · cases h; simp [Memory.read]
    · have : j < i := hm.1 _ h
      simp [Memory.read, Nat.ne_of_gt this, ih hm.2 h]

/-- An entry after a write is the one written or was there. -/
theorem Memory.mem_write {m : Memory α} {i : Nat} {v : α} {c : Nat × α} (h : c ∈ Memory.write m i v) :
    c = (i, v) ∨ c ∈ m := by
  induction m with
  | nil => simpa [Memory.write] using h
  | cons d rest ih =>
    obtain ⟨j, x⟩ := d
    simp only [Memory.write] at h
    split at h
    · simpa using h
    · split at h
      · rcases List.mem_cons.mp h with h | h <;> simp [h]
      · rcases List.mem_cons.mp h with h | h
        · simp [h]
        · rcases ih h with h | h <;> simp [h]

/-- An entry after writing a sequence is an item of it, at a cell of its range, or was there. -/
theorem Memory.mem_writeSeq {m : Memory α} {start : Nat} {vs : List α} {c : Nat × α}
    (h : c ∈ Memory.writeSeq m start vs) : (c.2 ∈ vs ∧ start ≤ c.1 ∧ c.1 < start + vs.length) ∨ c ∈ m := by
  induction vs generalizing m start with
  | nil => exact .inr h
  | cons v vs ih =>
    rcases ih h with ⟨h1, h2, h3⟩ | h
    · exact .inl ⟨List.mem_cons_of_mem _ h1, by omega, by simp only [List.length_cons]; omega⟩
    · rcases Memory.mem_write h with h | h
      · subst h; exact .inl ⟨by simp, by simp, by simp⟩
      · exact .inr h

/-- A redraw keeps the indices. -/
theorem Memory.mem_redraw {m : Memory α} {n : Nat} {f : Nat → α} {c : Nat × α} (h : c ∈ Memory.redraw m n f) :
    ∃ v, (c.1, v) ∈ m := by
  obtain ⟨d, hd, rfl⟩ := List.mem_map.mp h
  exact ⟨d.2, by split <;> exact hd⟩

theorem Memory.wf_nil : Memory.wf ([] : Memory α) := List.Pairwise.nil

theorem Memory.wf_write {m : Memory α} (hm : Memory.wf m) (i : Nat) (v : α) : Memory.wf (Memory.write m i v) := by
  induction m with
  | nil => simp [Memory.write, Memory.wf]
  | cons c rest ih =>
    obtain ⟨j, x⟩ := c
    rw [Memory.wf, List.pairwise_cons] at hm
    simp only [Memory.write]
    split
    · rename_i h
      refine List.pairwise_cons.mpr ⟨fun d hd => ?_, List.pairwise_cons.mpr hm⟩
      rcases List.mem_cons.mp hd with rfl | hd
      · exact h
      · exact Nat.lt_trans h (hm.1 _ hd)
    · split
      · rename_i h; subst h; exact List.pairwise_cons.mpr hm
      · refine List.pairwise_cons.mpr ⟨fun d hd => ?_, ih hm.2⟩
        rcases Memory.mem_write hd with rfl | hd
        · show j < i; omega
        · exact hm.1 _ hd

theorem Memory.wf_writeSeq {m : Memory α} (hm : Memory.wf m) (start : Nat) (vs : List α) :
    Memory.wf (Memory.writeSeq m start vs) := by
  induction vs generalizing m start with
  | nil => exact hm
  | cons v vs ih => exact ih (Memory.wf_write hm _ _) _

theorem Memory.wf_redraw {m : Memory α} (hm : Memory.wf m) (n : Nat) (f : Nat → α) :
    Memory.wf (Memory.redraw m n f) := by
  rw [Memory.wf, Memory.redraw, List.pairwise_map]
  exact hm.imp fun {a b} h => by split <;> split <;> exact h

/-- Writing an item a cell already holds changes nothing: a buffer has one canonical form. -/
theorem Memory.write_of_read {m : Memory α} (hm : Memory.wf m) {i : Nat} {v : α} (h : Memory.read m i = some v) :
    Memory.write m i v = m := by
  induction m with
  | nil => simp at h
  | cons c rest ih =>
    obtain ⟨j, x⟩ := c
    rw [Memory.wf, List.pairwise_cons] at hm
    by_cases hij : i = j
    · subst hij; simp only [Memory.read, if_true, Option.some.injEq] at h; simp [Memory.write, h]
    · simp only [Memory.read, if_neg hij] at h
      have : j < i := hm.1 _ (Memory.mem_of_read h)
      simp [Memory.write, hij, Nat.not_lt.mpr (Nat.le_of_lt this), ih hm.2 h]

/-- The buffers after reset are in canonical form. -/
theorem State.reset_buffers_wf : Memory.wf State.reset.ebuf ∧ Memory.wf State.reset.pbuf := ⟨Memory.wf_nil, Memory.wf_nil⟩

end Sys2Proof.Machine
end

