-- ==== Sys2Proof/Laws/State.lean ====
section
/-! SUPPORT. One lemma per field of State per update, each true by rfl, so that no proof unfolds a record update. -/

namespace Sys2Proof.Machine

variable (s : State)

@[simp] theorem State.withCmd_cfg (w : CmdWord) : (s.withCmd w).cfg = s.cfg := rfl
@[simp] theorem State.withCmd_cmd (w : CmdWord) : (s.withCmd w).cmd = w := rfl
@[simp] theorem State.withCmd_len (w : CmdWord) : (s.withCmd w).len = s.len := rfl
@[simp] theorem State.withCmd_status (w : CmdWord) : (s.withCmd w).status = s.status := rfl
@[simp] theorem State.withCmd_olen (w : CmdWord) : (s.withCmd w).olen = s.olen := rfl
@[simp] theorem State.withCmd_errIndex (w : CmdWord) : (s.withCmd w).errIndex = s.errIndex := rfl
@[simp] theorem State.withCmd_errValue (w : CmdWord) : (s.withCmd w).errValue = s.errValue := rfl
@[simp] theorem State.withCmd_errReq (w : CmdWord) : (s.withCmd w).errReq = s.errReq := rfl
@[simp] theorem State.withCmd_ebuf (w : CmdWord) : (s.withCmd w).ebuf = s.ebuf := rfl
@[simp] theorem State.withCmd_pbuf (w : CmdWord) : (s.withCmd w).pbuf = s.pbuf := rfl
@[simp] theorem State.withCmd_pending (w : CmdWord) : (s.withCmd w).pending = s.pending := rfl
@[simp] theorem State.withCmd_replies (w : CmdWord) : (s.withCmd w).replies = s.replies := rfl
@[simp] theorem State.withCmd_draws (w : CmdWord) : (s.withCmd w).draws = s.draws := rfl

@[simp] theorem State.withLen_cfg (n : Nat) : (s.withLen n).cfg = s.cfg := rfl
@[simp] theorem State.withLen_cmd (n : Nat) : (s.withLen n).cmd = s.cmd := rfl
@[simp] theorem State.withLen_len (n : Nat) : (s.withLen n).len = n := rfl
@[simp] theorem State.withLen_status (n : Nat) : (s.withLen n).status = s.status := rfl
@[simp] theorem State.withLen_olen (n : Nat) : (s.withLen n).olen = s.olen := rfl
@[simp] theorem State.withLen_errIndex (n : Nat) : (s.withLen n).errIndex = s.errIndex := rfl
@[simp] theorem State.withLen_errValue (n : Nat) : (s.withLen n).errValue = s.errValue := rfl
@[simp] theorem State.withLen_errReq (n : Nat) : (s.withLen n).errReq = s.errReq := rfl
@[simp] theorem State.withLen_ebuf (n : Nat) : (s.withLen n).ebuf = s.ebuf := rfl
@[simp] theorem State.withLen_pbuf (n : Nat) : (s.withLen n).pbuf = s.pbuf := rfl
@[simp] theorem State.withLen_pending (n : Nat) : (s.withLen n).pending = s.pending := rfl
@[simp] theorem State.withLen_replies (n : Nat) : (s.withLen n).replies = s.replies := rfl
@[simp] theorem State.withLen_draws (n : Nat) : (s.withLen n).draws = s.draws := rfl

@[simp] theorem State.withReport_cfg (st : BitVec 3) (ol ei ev : Nat) (er : BitVec 4) : (s.withReport st ol ei ev er).cfg = s.cfg := rfl
@[simp] theorem State.withReport_cmd (st : BitVec 3) (ol ei ev : Nat) (er : BitVec 4) : (s.withReport st ol ei ev er).cmd = s.cmd := rfl
@[simp] theorem State.withReport_len (st : BitVec 3) (ol ei ev : Nat) (er : BitVec 4) : (s.withReport st ol ei ev er).len = s.len := rfl
@[simp] theorem State.withReport_status (st : BitVec 3) (ol ei ev : Nat) (er : BitVec 4) : (s.withReport st ol ei ev er).status = st := rfl
@[simp] theorem State.withReport_olen (st : BitVec 3) (ol ei ev : Nat) (er : BitVec 4) : (s.withReport st ol ei ev er).olen = ol := rfl
@[simp] theorem State.withReport_errIndex (st : BitVec 3) (ol ei ev : Nat) (er : BitVec 4) : (s.withReport st ol ei ev er).errIndex = ei := rfl
@[simp] theorem State.withReport_errValue (st : BitVec 3) (ol ei ev : Nat) (er : BitVec 4) : (s.withReport st ol ei ev er).errValue = ev := rfl
@[simp] theorem State.withReport_errReq (st : BitVec 3) (ol ei ev : Nat) (er : BitVec 4) : (s.withReport st ol ei ev er).errReq = er := rfl
@[simp] theorem State.withReport_ebuf (st : BitVec 3) (ol ei ev : Nat) (er : BitVec 4) : (s.withReport st ol ei ev er).ebuf = s.ebuf := rfl
@[simp] theorem State.withReport_pbuf (st : BitVec 3) (ol ei ev : Nat) (er : BitVec 4) : (s.withReport st ol ei ev er).pbuf = s.pbuf := rfl
@[simp] theorem State.withReport_pending (st : BitVec 3) (ol ei ev : Nat) (er : BitVec 4) : (s.withReport st ol ei ev er).pending = s.pending := rfl
@[simp] theorem State.withReport_replies (st : BitVec 3) (ol ei ev : Nat) (er : BitVec 4) : (s.withReport st ol ei ev er).replies = s.replies := rfl
@[simp] theorem State.withReport_draws (st : BitVec 3) (ol ei ev : Nat) (er : BitVec 4) : (s.withReport st ol ei ev er).draws = s.draws := rfl

@[simp] theorem State.withEbuf_cfg (m : Memory Nat) : (s.withEbuf m).cfg = s.cfg := rfl
@[simp] theorem State.withEbuf_cmd (m : Memory Nat) : (s.withEbuf m).cmd = s.cmd := rfl
@[simp] theorem State.withEbuf_len (m : Memory Nat) : (s.withEbuf m).len = s.len := rfl
@[simp] theorem State.withEbuf_status (m : Memory Nat) : (s.withEbuf m).status = s.status := rfl
@[simp] theorem State.withEbuf_olen (m : Memory Nat) : (s.withEbuf m).olen = s.olen := rfl
@[simp] theorem State.withEbuf_errIndex (m : Memory Nat) : (s.withEbuf m).errIndex = s.errIndex := rfl
@[simp] theorem State.withEbuf_errValue (m : Memory Nat) : (s.withEbuf m).errValue = s.errValue := rfl
@[simp] theorem State.withEbuf_errReq (m : Memory Nat) : (s.withEbuf m).errReq = s.errReq := rfl
@[simp] theorem State.withEbuf_ebuf (m : Memory Nat) : (s.withEbuf m).ebuf = m := rfl
@[simp] theorem State.withEbuf_pbuf (m : Memory Nat) : (s.withEbuf m).pbuf = s.pbuf := rfl
@[simp] theorem State.withEbuf_pending (m : Memory Nat) : (s.withEbuf m).pending = s.pending := rfl
@[simp] theorem State.withEbuf_replies (m : Memory Nat) : (s.withEbuf m).replies = s.replies := rfl
@[simp] theorem State.withEbuf_draws (m : Memory Nat) : (s.withEbuf m).draws = s.draws := rfl

@[simp] theorem State.withPbuf_cfg (m : Memory Byte) : (s.withPbuf m).cfg = s.cfg := rfl
@[simp] theorem State.withPbuf_cmd (m : Memory Byte) : (s.withPbuf m).cmd = s.cmd := rfl
@[simp] theorem State.withPbuf_len (m : Memory Byte) : (s.withPbuf m).len = s.len := rfl
@[simp] theorem State.withPbuf_status (m : Memory Byte) : (s.withPbuf m).status = s.status := rfl
@[simp] theorem State.withPbuf_olen (m : Memory Byte) : (s.withPbuf m).olen = s.olen := rfl
@[simp] theorem State.withPbuf_errIndex (m : Memory Byte) : (s.withPbuf m).errIndex = s.errIndex := rfl
@[simp] theorem State.withPbuf_errValue (m : Memory Byte) : (s.withPbuf m).errValue = s.errValue := rfl
@[simp] theorem State.withPbuf_errReq (m : Memory Byte) : (s.withPbuf m).errReq = s.errReq := rfl
@[simp] theorem State.withPbuf_ebuf (m : Memory Byte) : (s.withPbuf m).ebuf = s.ebuf := rfl
@[simp] theorem State.withPbuf_pbuf (m : Memory Byte) : (s.withPbuf m).pbuf = m := rfl
@[simp] theorem State.withPbuf_pending (m : Memory Byte) : (s.withPbuf m).pending = s.pending := rfl
@[simp] theorem State.withPbuf_replies (m : Memory Byte) : (s.withPbuf m).replies = s.replies := rfl
@[simp] theorem State.withPbuf_draws (m : Memory Byte) : (s.withPbuf m).draws = s.draws := rfl

@[simp] theorem State.withPending_cfg (es : List Event) : (s.withPending es).cfg = s.cfg := rfl
@[simp] theorem State.withPending_cmd (es : List Event) : (s.withPending es).cmd = s.cmd := rfl
@[simp] theorem State.withPending_len (es : List Event) : (s.withPending es).len = s.len := rfl
@[simp] theorem State.withPending_status (es : List Event) : (s.withPending es).status = s.status := rfl
@[simp] theorem State.withPending_olen (es : List Event) : (s.withPending es).olen = s.olen := rfl
@[simp] theorem State.withPending_errIndex (es : List Event) : (s.withPending es).errIndex = s.errIndex := rfl
@[simp] theorem State.withPending_errValue (es : List Event) : (s.withPending es).errValue = s.errValue := rfl
@[simp] theorem State.withPending_errReq (es : List Event) : (s.withPending es).errReq = s.errReq := rfl
@[simp] theorem State.withPending_ebuf (es : List Event) : (s.withPending es).ebuf = s.ebuf := rfl
@[simp] theorem State.withPending_pbuf (es : List Event) : (s.withPending es).pbuf = s.pbuf := rfl
@[simp] theorem State.withPending_pending (es : List Event) : (s.withPending es).pending = es := rfl
@[simp] theorem State.withPending_replies (es : List Event) : (s.withPending es).replies = s.replies := rfl
@[simp] theorem State.withPending_draws (es : List Event) : (s.withPending es).draws = s.draws := rfl

@[simp] theorem State.withReply_cfg (v : Nat) : (s.withReply v).cfg = s.cfg := rfl
@[simp] theorem State.withReply_cmd (v : Nat) : (s.withReply v).cmd = s.cmd := rfl
@[simp] theorem State.withReply_len (v : Nat) : (s.withReply v).len = s.len := rfl
@[simp] theorem State.withReply_status (v : Nat) : (s.withReply v).status = s.status := rfl
@[simp] theorem State.withReply_olen (v : Nat) : (s.withReply v).olen = s.olen := rfl
@[simp] theorem State.withReply_errIndex (v : Nat) : (s.withReply v).errIndex = s.errIndex := rfl
@[simp] theorem State.withReply_errValue (v : Nat) : (s.withReply v).errValue = s.errValue := rfl
@[simp] theorem State.withReply_errReq (v : Nat) : (s.withReply v).errReq = s.errReq := rfl
@[simp] theorem State.withReply_ebuf (v : Nat) : (s.withReply v).ebuf = s.ebuf := rfl
@[simp] theorem State.withReply_pbuf (v : Nat) : (s.withReply v).pbuf = s.pbuf := rfl
@[simp] theorem State.withReply_pending (v : Nat) : (s.withReply v).pending = s.pending := rfl
@[simp] theorem State.withReply_replies (v : Nat) : (s.withReply v).replies = s.replies ++ [v] := rfl
@[simp] theorem State.withReply_draws (v : Nat) : (s.withReply v).draws = s.draws := rfl

@[simp] theorem State.nextDraw_cfg : s.nextDraw.cfg = s.cfg := rfl
@[simp] theorem State.nextDraw_cmd : s.nextDraw.cmd = s.cmd := rfl
@[simp] theorem State.nextDraw_len : s.nextDraw.len = s.len := rfl
@[simp] theorem State.nextDraw_status : s.nextDraw.status = s.status := rfl
@[simp] theorem State.nextDraw_olen : s.nextDraw.olen = s.olen := rfl
@[simp] theorem State.nextDraw_errIndex : s.nextDraw.errIndex = s.errIndex := rfl
@[simp] theorem State.nextDraw_errValue : s.nextDraw.errValue = s.errValue := rfl
@[simp] theorem State.nextDraw_errReq : s.nextDraw.errReq = s.errReq := rfl
@[simp] theorem State.nextDraw_ebuf : s.nextDraw.ebuf = s.ebuf := rfl
@[simp] theorem State.nextDraw_pbuf : s.nextDraw.pbuf = s.pbuf := rfl
@[simp] theorem State.nextDraw_pending : s.nextDraw.pending = s.pending := rfl
@[simp] theorem State.nextDraw_replies : s.nextDraw.replies = s.replies := rfl
@[simp] theorem State.nextDraw_draws : s.nextDraw.draws = s.draws + 1 := rfl

@[simp] theorem State.resetCore_cfg : s.resetCore.cfg = s.cfg := rfl
@[simp] theorem State.resetCore_cmd : s.resetCore.cmd = 0 := rfl
@[simp] theorem State.resetCore_len : s.resetCore.len = 0 := rfl
@[simp] theorem State.resetCore_status : s.resetCore.status = 0 := rfl
@[simp] theorem State.resetCore_olen : s.resetCore.olen = 0 := rfl
@[simp] theorem State.resetCore_errIndex : s.resetCore.errIndex = 0 := rfl
@[simp] theorem State.resetCore_errValue : s.resetCore.errValue = 0 := rfl
@[simp] theorem State.resetCore_errReq : s.resetCore.errReq = 0 := rfl
@[simp] theorem State.resetCore_ebuf : s.resetCore.ebuf = [] := rfl
@[simp] theorem State.resetCore_pbuf : s.resetCore.pbuf = [] := rfl
@[simp] theorem State.resetCore_pending : s.resetCore.pending = s.pending := rfl
@[simp] theorem State.resetCore_replies : s.resetCore.replies = s.replies := rfl
@[simp] theorem State.resetCore_draws : s.resetCore.draws = s.draws := rfl

@[simp] theorem State.redrawPbuf_cfg (m : Nat) : (s.redrawPbuf m).cfg = s.cfg := rfl
@[simp] theorem State.redrawPbuf_cmd (m : Nat) : (s.redrawPbuf m).cmd = s.cmd := rfl
@[simp] theorem State.redrawPbuf_len (m : Nat) : (s.redrawPbuf m).len = s.len := rfl
@[simp] theorem State.redrawPbuf_status (m : Nat) : (s.redrawPbuf m).status = s.status := rfl
@[simp] theorem State.redrawPbuf_olen (m : Nat) : (s.redrawPbuf m).olen = s.olen := rfl
@[simp] theorem State.redrawPbuf_errIndex (m : Nat) : (s.redrawPbuf m).errIndex = s.errIndex := rfl
@[simp] theorem State.redrawPbuf_errValue (m : Nat) : (s.redrawPbuf m).errValue = s.errValue := rfl
@[simp] theorem State.redrawPbuf_errReq (m : Nat) : (s.redrawPbuf m).errReq = s.errReq := rfl
@[simp] theorem State.redrawPbuf_ebuf (m : Nat) : (s.redrawPbuf m).ebuf = s.ebuf := rfl
@[simp] theorem State.redrawPbuf_pbuf (m : Nat) : (s.redrawPbuf m).pbuf = Memory.redraw s.pbuf m fun i => Config.freeValue 8 s.draws (.afterRangeError i) := rfl
@[simp] theorem State.redrawPbuf_pending (m : Nat) : (s.redrawPbuf m).pending = s.pending := rfl
@[simp] theorem State.redrawPbuf_replies (m : Nat) : (s.redrawPbuf m).replies = s.replies := rfl
@[simp] theorem State.redrawPbuf_draws (m : Nat) : (s.redrawPbuf m).draws = s.draws := rfl

@[simp] theorem raised_cfg (e : CmdError) : (raised e s).cfg = s.cfg := rfl
@[simp] theorem raised_cmd (e : CmdError) : (raised e s).cmd = s.cmd := rfl
@[simp] theorem raised_len (e : CmdError) : (raised e s).len = s.len := rfl
@[simp] theorem raised_status (e : CmdError) : (raised e s).status = statusWord e.code := rfl
@[simp] theorem raised_olen (e : CmdError) : (raised e s).olen = 0 := rfl
@[simp] theorem raised_errIndex (e : CmdError) : (raised e s).errIndex = e.reportIndex := rfl
@[simp] theorem raised_errValue (e : CmdError) : (raised e s).errValue = e.reportValue := rfl
@[simp] theorem raised_errReq (e : CmdError) : (raised e s).errReq = e.reportReq := rfl
@[simp] theorem raised_ebuf (e : CmdError) : (raised e s).ebuf = s.ebuf := rfl
@[simp] theorem raised_pbuf (e : CmdError) : (raised e s).pbuf = s.pbuf := rfl
@[simp] theorem raised_pending (e : CmdError) : (raised e s).pending = s.pending := rfl
@[simp] theorem raised_replies (e : CmdError) : (raised e s).replies = s.replies := rfl
@[simp] theorem raised_draws (e : CmdError) : (raised e s).draws = s.draws + 1 := rfl

@[simp] theorem succeeded_cfg (m : Nat) : (succeeded m s).cfg = s.cfg := rfl
@[simp] theorem succeeded_cmd (m : Nat) : (succeeded m s).cmd = s.cmd := rfl
@[simp] theorem succeeded_len (m : Nat) : (succeeded m s).len = s.len := rfl
@[simp] theorem succeeded_status (m : Nat) : (succeeded m s).status = statusWord 0 := rfl
@[simp] theorem succeeded_olen (m : Nat) : (succeeded m s).olen = m := rfl
@[simp] theorem succeeded_errIndex (m : Nat) : (succeeded m s).errIndex = 0 := rfl
@[simp] theorem succeeded_errValue (m : Nat) : (succeeded m s).errValue = 0 := rfl
@[simp] theorem succeeded_errReq (m : Nat) : (succeeded m s).errReq = 0 := rfl
@[simp] theorem succeeded_ebuf (m : Nat) : (succeeded m s).ebuf = s.ebuf := rfl
@[simp] theorem succeeded_pbuf (m : Nat) : (succeeded m s).pbuf = s.pbuf := rfl
@[simp] theorem succeeded_pending (m : Nat) : (succeeded m s).pending = s.pending := rfl
@[simp] theorem succeeded_replies (m : Nat) : (succeeded m s).replies = s.replies := rfl
@[simp] theorem succeeded_draws (m : Nat) : (succeeded m s).draws = s.draws + 1 := rfl

end Sys2Proof.Machine
end

