-- ==== Sys2Proof/Laws/Command.lean ====
section
/-! SUPPORT. What a command can do, said once: the four outcomes of PACK, the three of UNPACK, and the reads they make. -/

namespace Sys2Proof.Machine

/-- Every command is one of the two general rules at its operand (R64, R90, R110). -/
theorem exec_eq (i : Instr) (s : State) :
    exec i s = if i.op = 0 then packCommand i.bits s else unpackCommand i.bits s := by
  cases i <;> rfl

/-- The four words a command can write to `STATUS` (R16). -/
@[simp] theorem statusWord_zero : statusWord 0#2 = 0b001#3 := by decide

@[simp] theorem statusWord_one : statusWord 1#2 = 0b011#3 := by decide

@[simp] theorem statusWord_two : statusWord 2#2 = 0b101#3 := by decide

@[simp] theorem statusWord_three : statusWord 3#2 = 0b111#3 := by decide

/-- The whole effect of `raise InvalidBitWidth` (R150). -/
theorem raised_invalidBitWidth (b : Byte) (s : State) :
    raised (.invalidBitWidth b) s = (s.withReport 0b011 0 0 b.toNat 0).nextDraw := by
  simp [raised, CmdError.code, CmdError.reportIndex, CmdError.reportValue, CmdError.reportReq]

/-- The whole effect of `raise MisalignedLength` (R150). -/
theorem raised_misalignedLength (r : BitVec 4) (s : State) :
    raised (.misalignedLength r) s = (s.withReport 0b101 0 0 0 r).nextDraw := by
  simp [raised, CmdError.code, CmdError.reportIndex, CmdError.reportValue, CmdError.reportReq]

/-- The effect of `raise ValueOutOfRange` on the registers (R150). -/
theorem raised_valueOutOfRange (k v : Nat) (s : State) :
    raised (.valueOutOfRange k v) s = (s.withReport 0b111 0 k v 0).nextDraw := by
  simp [raised, CmdError.code, CmdError.reportIndex, CmdError.reportValue, CmdError.reportReq]

/-- The effect of a success on the registers (R97, R120). -/
theorem succeeded_eq (m : Nat) (s : State) : succeeded m s = (s.withReport 0b001 m 0 0 0).nextDraw := by
  simp [succeeded]

@[simp] theorem elementRead_written {s : State} {k v : Nat} (d : Draw) (h : Memory.read s.ebuf k = some v) :
    elementRead s d k = v := by simp [elementRead, h]

@[simp] theorem byteRead_written {s : State} {i : Nat} {v : Byte} (d : Draw) (h : Memory.read s.pbuf i = some v) :
    byteRead s d i = v := by simp [byteRead, h]

@[simp] theorem checkedElement_written {s : State} {k v : Nat} (h : Memory.read s.ebuf k = some v) :
    checkedElement s k = v := elementRead_written _ h

theorem assembledElement_written {s : State} {k v : Nat} (h : Memory.read s.ebuf k = some v) :
    assembledElement s k = BitVec.ofNat 8 v := by simp [assembledElement, elementRead_written _ h]

@[simp] theorem sourceByte_written {s : State} {i : Nat} {v : Byte} (h : Memory.read s.pbuf i = some v) :
    sourceByte s i = v := byteRead_written _ h

/-- A read of an element cell gives a value of `W_ELEM` bits, written or drawn. -/
theorem elementRead_lt {s : State} (hfit : ∀ c ∈ s.ebuf, c.2 < 2 ^ s.cfg.wElem) (d : Draw) (k : Nat) :
    elementRead s d k < 2 ^ s.cfg.wElem := by
  unfold elementRead
  split
  · rename_i v hv; exact hfit _ (Memory.mem_of_read hv)
  · exact BitVec.isLt _

/-- The range check finds nothing exactly when every element is in range (R95). -/
theorem firstOutOfRange_none {s : State} {mask : Byte} :
    firstOutOfRange s mask = none ↔ ∀ k < s.len, checkedElement s k ≤ mask.toNat := by
  simp [firstOutOfRange]

/-- The range check finds `k` exactly when `k` is the lowest out-of-range index (R95, R153). -/
theorem firstOutOfRange_some {s : State} {mask : Byte} {k : Nat} :
    firstOutOfRange s mask = some k ↔
      k < s.len ∧ mask.toNat < checkedElement s k ∧ ∀ k' < k, checkedElement s k' ≤ mask.toNat := by
  unfold firstOutOfRange
  rw [List.find?_eq_some_iff_getElem]
  constructor
  · rintro ⟨h1, i, hi, h2, h3⟩
    simp only [List.getElem_range] at h2
    subst h2
    refine ⟨by simpa using hi, by simpa using h1, fun k' hk' => ?_⟩
    simpa using h3 k' hk'
  · rintro ⟨h1, h2, h3⟩
    refine ⟨by simpa using h2, k, by simpa using h1, by simp, fun j hj => ?_⟩
    simpa using h3 j hj

section Pack

variable {b : Byte} {s : State}

/-- `InvalidBitWidth` comes first (R91, R141). -/
theorem packCommand_invalid (h : isSupported b = false) :
    packCommand b s = .next (raised (.invalidBitWidth b) s) := by
  simp [packCommand, ratioMux_valid, h, raise]

/-- Then `MisalignedLength` (R94, R142). -/
theorem packCommand_misaligned (h : isSupported b = true) (hn : s.len % (ratioMux b).ratio.toNat ≠ 0) :
    packCommand b s = .next (raised (.misalignedLength (ratioMux b).ratio) s) := by
  simp [packCommand, ratioMux_valid, h, hn, raise]

/-- Then `ValueOutOfRange` at the lowest out-of-range index (R95, R143). -/
theorem packCommand_outOfRange (h : isSupported b = true) (hn : s.len % (ratioMux b).ratio.toNat = 0) {k : Nat}
    (hk : firstOutOfRange s (ratioMux b).mask = some k) :
    packCommand b s = .next (raised (.valueOutOfRange k (checkedElement s k))
      (s.redrawPbuf (s.len / (ratioMux b).ratio.toNat))) := by
  simp [packCommand, ratioMux_valid, h, hn, hk, raise]

/-- Otherwise PACK succeeds (R93, R97). -/
theorem packCommand_success (h : isSupported b = true) (hn : s.len % (ratioMux b).ratio.toNat = 0)
    (hk : ∀ k < s.len, checkedElement s k ≤ (ratioMux b).mask.toNat) :
    packCommand b s = .next (succeeded (s.len / (ratioMux b).ratio.toNat)
      (s.withPbuf (Memory.writeSeq s.pbuf 0 (packedBytes b (ratioMux b).ratio.toNat s)))) := by
  simp [packCommand, ratioMux_valid, h, hn, firstOutOfRange_none.mpr hk, succeed]

/-- Everything PACK can do: it always answers a next state, one of four. -/
theorem packCommand_cases (b : Byte) (s : State) :
    (isSupported b = false ∧ packCommand b s = .next (raised (.invalidBitWidth b) s)) ∨
    (isSupported b = true ∧ s.len % (ratioMux b).ratio.toNat ≠ 0 ∧
      packCommand b s = .next (raised (.misalignedLength (ratioMux b).ratio) s)) ∨
    (isSupported b = true ∧ s.len % (ratioMux b).ratio.toNat = 0 ∧
      ∃ k, firstOutOfRange s (ratioMux b).mask = some k ∧
        packCommand b s = .next (raised (.valueOutOfRange k (checkedElement s k))
          (s.redrawPbuf (s.len / (ratioMux b).ratio.toNat)))) ∨
    (isSupported b = true ∧ s.len % (ratioMux b).ratio.toNat = 0 ∧
      (∀ k < s.len, checkedElement s k ≤ (ratioMux b).mask.toNat) ∧
        packCommand b s = .next (succeeded (s.len / (ratioMux b).ratio.toNat)
          (s.withPbuf (Memory.writeSeq s.pbuf 0 (packedBytes b (ratioMux b).ratio.toNat s))))) := by
  cases hb : isSupported b with
  | false => exact .inl ⟨rfl, packCommand_invalid hb⟩
  | true =>
    by_cases hn : s.len % (ratioMux b).ratio.toNat = 0
    · cases hk : firstOutOfRange s (ratioMux b).mask with
      | some k => exact .inr (.inr (.inl ⟨rfl, hn, k, rfl, packCommand_outOfRange hb hn hk⟩))
      | none =>
        have hk' := firstOutOfRange_none.mp hk
        exact .inr (.inr (.inr ⟨rfl, hn, hk', packCommand_success hb hn hk'⟩))
    · exact .inr (.inl ⟨rfl, hn, packCommand_misaligned hb hn⟩)

@[simp] theorem packedBytes_length (ratio : Nat) : (packedBytes b ratio s).length = s.len / ratio := by
  simp [packedBytes]

theorem packedBytes_getElem (ratio : Nat) {i : Nat} (hi : i < (packedBytes b ratio s).length) :
    (packedBytes b ratio s)[i] = packByte b ratio fun j => assembledElement s (i * ratio + j) := by
  simp [packedBytes]

end Pack

section Unpack

variable {b : Byte} {s : State}

theorem unpackCommand_invalid (h : isSupported b = false) :
    unpackCommand b s = .next (raised (.invalidBitWidth b) s) := by
  simp [unpackCommand, ratioMux_valid, h, raise]

/-- An UNPACK whose output does not fit has no meaning (R134). -/
theorem unpackCommand_refused (h : isSupported b = true)
    (hn : 2 ^ s.cfg.wLen - 1 < s.len * (ratioMux b).ratio.toNat) :
    unpackCommand b s = .refused .unpackNotAdmitted := by
  simp [unpackCommand, ratioMux_valid, h, hn]

/-- An admitted UNPACK of a supported width succeeds (R113, R120). -/
theorem unpackCommand_success (h : isSupported b = true)
    (hn : s.len * (ratioMux b).ratio.toNat ≤ 2 ^ s.cfg.wLen - 1) :
    unpackCommand b s = .next (succeeded (s.len * (ratioMux b).ratio.toNat)
      (s.withEbuf (Memory.writeSeq s.ebuf 0 (unpackedElements b (ratioMux b).ratio.toNat (ratioMux b).mask s)))) := by
  simp [unpackCommand, ratioMux_valid, h, Nat.not_lt.mpr hn, succeed]

/-- Everything UNPACK can do. -/
theorem unpackCommand_cases (b : Byte) (s : State) :
    (isSupported b = false ∧ unpackCommand b s = .next (raised (.invalidBitWidth b) s)) ∨
    (isSupported b = true ∧ 2 ^ s.cfg.wLen - 1 < s.len * (ratioMux b).ratio.toNat ∧
      unpackCommand b s = .refused .unpackNotAdmitted) ∨
    (isSupported b = true ∧ s.len * (ratioMux b).ratio.toNat ≤ 2 ^ s.cfg.wLen - 1 ∧
      unpackCommand b s = .next (succeeded (s.len * (ratioMux b).ratio.toNat)
        (s.withEbuf (Memory.writeSeq s.ebuf 0
          (unpackedElements b (ratioMux b).ratio.toNat (ratioMux b).mask s))))) := by
  cases hb : isSupported b with
  | false => exact .inl ⟨rfl, unpackCommand_invalid hb⟩
  | true =>
    by_cases hn : s.len * (ratioMux b).ratio.toNat ≤ 2 ^ s.cfg.wLen - 1
    · exact .inr (.inr ⟨rfl, hn, unpackCommand_success hb hn⟩)
    · exact .inr (.inl ⟨rfl, by omega, unpackCommand_refused hb (by omega)⟩)

@[simp] theorem unpackedElements_length (ratio : Nat) (mask : Byte) :
    (unpackedElements b ratio mask s).length = s.len * ratio := by
  simp [unpackedElements]

theorem unpackedElements_getElem (ratio : Nat) (mask : Byte) {e : Nat}
    (he : e < (unpackedElements b ratio mask s).length) :
    (unpackedElements b ratio mask s)[e] = (fieldAt b mask (sourceByte s (e / ratio)) (e % ratio)).toNat := by
  simp [unpackedElements]

/-- Every element UNPACK writes is at most `MASK` (R113). -/
theorem unpackedElements_le {ratio : Nat} {mask : Byte} {v : Nat} (h : v ∈ unpackedElements b ratio mask s) :
    v ≤ mask.toNat := by
  obtain ⟨e, -, rfl⟩ := List.mem_map.mp h
  exact fieldAt_le _ _ _ _

end Unpack

/-- The command of a word is its general rule at the word's operand (R129). -/
theorem exec_decode (w : CmdWord) (s : State) :
    exec (decode w) s =
      if opField w = 0 then packCommand (bitsField w) s else unpackCommand (bitsField w) s := by
  obtain ⟨-, hop, hbits⟩ := decode_fields w
  rw [exec_eq, hop, hbits]

end Sys2Proof.Machine
end

