-- ==== Sys2Proof/Laws/HostPort.lean ====
section
/-! SUPPORT. What a step can do, said once. -/

namespace Sys2Proof.Machine

/-- A host read of a cell, written or not, changes nothing but the draw number. -/
@[simp] theorem drawIfUnwritten_cfg {α : Type} (c : Option α) (s : State) : (drawIfUnwritten c s).cfg = s.cfg := by
  cases c <;> rfl

@[simp] theorem drawIfUnwritten_cmd {α : Type} (c : Option α) (s : State) : (drawIfUnwritten c s).cmd = s.cmd := by
  cases c <;> rfl

@[simp] theorem drawIfUnwritten_len {α : Type} (c : Option α) (s : State) : (drawIfUnwritten c s).len = s.len := by
  cases c <;> rfl

@[simp] theorem drawIfUnwritten_status {α : Type} (c : Option α) (s : State) : (drawIfUnwritten c s).status = s.status := by
  cases c <;> rfl

@[simp] theorem drawIfUnwritten_olen {α : Type} (c : Option α) (s : State) : (drawIfUnwritten c s).olen = s.olen := by
  cases c <;> rfl

@[simp] theorem drawIfUnwritten_errIndex {α : Type} (c : Option α) (s : State) : (drawIfUnwritten c s).errIndex = s.errIndex := by
  cases c <;> rfl

@[simp] theorem drawIfUnwritten_errValue {α : Type} (c : Option α) (s : State) : (drawIfUnwritten c s).errValue = s.errValue := by
  cases c <;> rfl

@[simp] theorem drawIfUnwritten_errReq {α : Type} (c : Option α) (s : State) : (drawIfUnwritten c s).errReq = s.errReq := by
  cases c <;> rfl

@[simp] theorem drawIfUnwritten_ebuf {α : Type} (c : Option α) (s : State) : (drawIfUnwritten c s).ebuf = s.ebuf := by
  cases c <;> rfl

@[simp] theorem drawIfUnwritten_pbuf {α : Type} (c : Option α) (s : State) : (drawIfUnwritten c s).pbuf = s.pbuf := by
  cases c <;> rfl

@[simp] theorem drawIfUnwritten_pending {α : Type} (c : Option α) (s : State) : (drawIfUnwritten c s).pending = s.pending := by
  cases c <;> rfl

@[simp] theorem drawIfUnwritten_replies {α : Type} (c : Option α) (s : State) : (drawIfUnwritten c s).replies = s.replies := by
  cases c <;> rfl

/-- The state a step performs its event in. -/
theorem step_pending {s : State} {e : Event} {rest : List Event} (h : s.pending = e :: rest) :
    step s = performEvent e (s.withPending rest) := by
  simp [step, takeEvent, h]

/-- A write of register 0 with a 9-bit value issues the command (R129). -/
theorem hostWrreg_cmd {s : State} {w : Nat} (h : w < 2 ^ 9) :
    hostWrreg 0 w s = issueCommand (BitVec.ofNat 9 w) s := by
  have h' : w < 512 := h
  simp [hostWrreg, Reg.ofNumber, Reg.width, writeReg, h']

/-- Everything a step that goes on can do (R3, R51, R125, R171): nothing, when no event is pending; else the first event,
in the state that has it taken off. -/
theorem step_next_cases {s t : State} (h : step s = .next t) :
    (s.pending = [] ∧ t = s) ∨ ∃ e rest, s.pending = e :: rest ∧
      ((e = .reset ∧ t = (s.withPending rest).resetCore) ∨
       (∃ k r, e = .op (.rdreg k) ∧ Reg.ofNumber k = some r ∧
          t = (s.withPending rest).withReply (readReg (s.withPending rest) r)) ∨
       (∃ w, e = .op (.wrreg 0 w) ∧ w < 2 ^ 9 ∧
          exec (decode (BitVec.ofNat 9 w)) ((s.withPending rest).withCmd (BitVec.ofNat 9 w)) = .next t) ∨
       (∃ n, e = .op (.wrreg 1 n) ∧ n < 2 ^ s.cfg.wLen ∧ t = (s.withPending rest).withLen n) ∨
       (∃ k v, e = .op (.wrreg k v) ∧ 2 ≤ k ∧ k ≤ 6 ∧ t = s.withPending rest) ∨
       (∃ i, e = .op (.rde i) ∧ i < 2 ^ s.cfg.wLen ∧
          t = drawIfUnwritten (Memory.read s.ebuf i)
            ((s.withPending rest).withReply (elementRead (s.withPending rest) (.hostElement i) i))) ∨
       (∃ i v, e = .op (.wre i v) ∧ i < 2 ^ s.cfg.wLen ∧ v < 2 ^ s.cfg.wElem ∧
          t = (s.withPending rest).withEbuf (Memory.write s.ebuf i v)) ∨
       (∃ i, e = .op (.rdp i) ∧ i < 2 ^ s.cfg.wLen ∧
          t = drawIfUnwritten (Memory.read s.pbuf i)
            ((s.withPending rest).withReply (byteRead (s.withPending rest) (.hostByte i) i).toNat)) ∨
       (∃ i v, e = .op (.wrp i v) ∧ i < 2 ^ s.cfg.wLen ∧ v < 2 ^ 8 ∧
          t = (s.withPending rest).withPbuf (Memory.write s.pbuf i (BitVec.ofNat 8 v)))) := by
  cases hp : s.pending with
  | nil => left; simp [step, takeEvent, hp] at h; exact ⟨rfl, h.symm⟩
  | cons e rest =>
    right
    refine ⟨e, rest, rfl, ?_⟩
    rw [step_pending hp] at h
    cases e with
    | reset => left; simp only [performEvent, Host.Outcome.next.injEq] at h; exact ⟨rfl, h.symm⟩
    | op o =>
      right
      cases o with
      | rdreg k =>
        left
        simp only [performEvent, performOp, hostRdreg] at h
        split at h
        · cases h
        · rename_i r hr; cases h; exact ⟨k, r, rfl, hr, rfl⟩
      | wrreg k v =>
        right
        simp only [performEvent, performOp, hostWrreg] at h
        split at h
        · cases h
        · rename_i r hr
          split at h
          · rename_i hv
            unfold Reg.ofNumber at hr
            split at hr <;> cases hr <;> simp only [writeReg] at h
            · exact .inl ⟨v, rfl, hv, h⟩
            · cases h; exact .inr (.inl ⟨v, rfl, hv, rfl⟩)
            all_goals cases h; exact .inr (.inr (.inl ⟨_, v, rfl, by omega, by omega, rfl⟩))
          · cases h
      | rde i =>
        simp only [performEvent, performOp, hostRde] at h
        split at h
        · rename_i hi; cases h; exact .inr (.inr (.inr (.inr (.inl ⟨i, rfl, hi, rfl⟩))))
        · cases h
      | wre i v =>
        simp only [performEvent, performOp, hostWre] at h
        split at h
        · rename_i hi
          split at h
          · rename_i hv; cases h; exact .inr (.inr (.inr (.inr (.inr (.inl ⟨i, v, rfl, hi, hv, rfl⟩)))))
          · cases h
        · cases h
      | rdp i =>
        simp only [performEvent, performOp, hostRdp] at h
        split at h
        · rename_i hi; cases h; exact .inr (.inr (.inr (.inr (.inr (.inr (.inl ⟨i, rfl, hi, rfl⟩))))))
        · cases h
      | wrp i v =>
        simp only [performEvent, performOp, hostWrp] at h
        split at h
        · rename_i hi
          split at h
          · rename_i hv; cases h; exact .inr (.inr (.inr (.inr (.inr (.inr (.inr ⟨i, v, rfl, hi, hv, rfl⟩))))))
          · cases h
        · cases h

end Sys2Proof.Machine
end

