-- ==== Sys2Proof/Laws/PerInstr.lean ====
section
/-! SUPPORT. Statements made per instruction: the family WordLayout. -/

namespace Sys2Proof.Laws.WordLayout

/-- R60: as an integer a command's word is `OP * 256 + BITS`. -/
def Statement (i : Instr) : Prop := (encode i).toNat = i.op.toNat * 256 + i.bits.toNat

theorem append_toNat (o : BitVec 1) (b : Byte) : (o ++ b).toNat = o.toNat * 256 + b.toNat := by
  rw [BitVec.toNat_append, Nat.shiftLeft_eq, Nat.mul_comm, ← Nat.two_pow_add_eq_or_of_lt b.isLt]

theorem pack1 : Statement .pack1 := rfl
theorem pack2 : Statement .pack2 := rfl
theorem pack4 : Statement .pack4 := rfl
theorem pack8 : Statement .pack8 := rfl
theorem unpack1 : Statement .unpack1 := rfl
theorem unpack2 : Statement .unpack2 := rfl
theorem unpack4 : Statement .unpack4 := rfl
theorem unpack8 : Statement .unpack8 := rfl
theorem packUnsupported (bits : Byte) : Statement (.packUnsupported bits) := append_toNat 0#1 bits
theorem unpackUnsupported (bits : Byte) : Statement (.unpackUnsupported bits) := append_toNat 1#1 bits

end Sys2Proof.Laws.WordLayout
end

