-- ==== Sys2Proof/Laws/Safety.lean ====
section
/-! SUPPORT. The invariants depend only on the fields they name, and what the written cells of a state give a command. -/

namespace Sys2Proof.Machine

/-- The report invariant reads only the registers it names. -/
theorem State.reportOk_congr {s t : State} (h : s.ReportOk) (hcmd : t.cmd = s.cmd) (hst : t.status = s.status)
    (hol : t.olen = s.olen) (hei : t.errIndex = s.errIndex) (hev : t.errValue = s.errValue)
    (her : t.errReq = s.errReq) : t.ReportOk := by
  obtain ⟨h1, h2, h3, h4, h5, h6⟩ := h
  constructor <;> rw [hst] <;> (try rw [hcmd]) <;> (try rw [hol]) <;> (try rw [hei]) <;> (try rw [hev]) <;>
    (try rw [her]) <;> assumption

/-- The width invariant reads only the fields it names. -/
theorem State.inv_congr {s t : State} (h : s.Inv) (hcfg : t.cfg = s.cfg) (hlen : t.len = s.len)
    (hol : t.olen = s.olen) (hei : t.errIndex = s.errIndex) (hev : t.errValue = s.errValue)
    (heb : t.ebuf = s.ebuf) (hpb : t.pbuf = s.pbuf) : t.Inv := by
  obtain ⟨h1, h2, h3, h4, h5, h6, h7, h8, h9⟩ := h
  constructor <;> (try rw [hcfg]) <;> (try rw [hlen]) <;> (try rw [hol]) <;> (try rw [hei]) <;> (try rw [hev]) <;>
    (try rw [heb]) <;> (try rw [hpb]) <;> assumption

/-- In-range written elements pass the range check (R95). -/
theorem State.ElementsInRange.checked_le {s : State} {n m : Nat} (h : s.ElementsInRange n m) :
    ∀ k < n, checkedElement s k ≤ m := by
  intro k hk
  obtain ⟨v, hv, hm⟩ := h k hk
  rw [checkedElement_written hv]
  exact hm

/-- In-range written elements are assembled whole (R96). -/
theorem State.ElementsInRange.assembled {s : State} {n m : Nat} (h : s.ElementsInRange n m) (hm : m < 2 ^ 8) :
    ∀ k < n, ∃ v, Memory.read s.ebuf k = some v ∧ (assembledElement s k).toNat = v ∧ v ≤ m := by
  intro k hk
  obtain ⟨v, hv, hvm⟩ := h k hk
  refine ⟨v, hv, ?_, hvm⟩
  rw [assembledElement_written hv, BitVec.toNat_ofNat, Nat.mod_eq_of_lt (Nat.lt_of_le_of_lt hvm hm)]

/-- A legal PACK is R90 at a supported width. -/
theorem legalPacks_facts {i : Instr} (h : i ∈ legalPacks) : i.op = 0 ∧ isSupported i.bits = true := by
  simp only [legalPacks, List.mem_cons, List.not_mem_nil, or_false] at h
  rcases h with rfl | rfl | rfl | rfl <;> decide

/-- A legal UNPACK is R110 at a supported width. -/
theorem legalUnpacks_facts {i : Instr} (h : i ∈ legalUnpacks) : i.op = 1 ∧ isSupported i.bits = true := by
  simp only [legalUnpacks, List.mem_cons, List.not_mem_nil, or_false] at h
  rcases h with rfl | rfl | rfl | rfl <;> decide

end Sys2Proof.Machine
end

