-- ==== Sys2Proof/Tests/Slice0.lean ====
section
/-! SUPPORT. Tests against the spec's own examples, the WellFormed smoke test, and a witness for the hypotheses of each
statement. Each test's comment names where the spec gives the expected result. -/

namespace Sys2Proof.Tests

open Sys2Proof.Machine

/-! Command words written out bit by bit from R60's layout, `OP ‖ BITS`. -/

theorem test_decode_pack1 : decode 0b000000001#9 = .pack1 := by decide
theorem test_decode_pack2 : decode 0b000000010#9 = .pack2 := by decide
theorem test_decode_pack4 : decode 0b000000100#9 = .pack4 := by decide
theorem test_decode_pack8 : decode 0b000001000#9 = .pack8 := by decide
theorem test_decode_unpack1 : decode 0b100000001#9 = .unpack1 := by decide
theorem test_decode_unpack2 : decode 0b100000010#9 = .unpack2 := by decide
theorem test_decode_unpack4 : decode 0b100000100#9 = .unpack4 := by decide
theorem test_decode_unpack8 : decode 0b100001000#9 = .unpack8 := by decide
theorem test_decode_pack_zero : decode 0b000000000#9 = .packUnsupported 0 := by decide
theorem test_decode_pack_sixteen : decode 0b000010000#9 = .packUnsupported 16 := by decide
theorem test_decode_unpack_seven : decode 0b100000111#9 = .unpackUnsupported 7 := by decide
theorem test_decode_unpack_255 : decode 0b111111111#9 = .unpackUnsupported 255 := by decide
theorem test_decode_too_wide : decodeTableWord 16 512 = none := by decide

/-! The WellFormed smoke test: an ill-formed term for each check, which the check refuses (R66, R135). -/

theorem test_illformed_pack : (Instr.packUnsupported 4).wellFormed = false := by decide
theorem test_illformed_unpack : (Instr.unpackUnsupported 1).wellFormed = false := by decide
theorem test_wellformed_pack : (Instr.packUnsupported 3).wellFormed = true := by decide

/-- `W_ELEM = 8`, `W_LEN = 4`: the smallest core (R8, R9). -/
def smallCfg : Config := { wElem := 8, wLen := 4 }

/-- `W_ELEM = 16`, `W_LEN = 4`: a core with a wider element cell (R8). -/
def wideCfg : Config := { wElem := 16, wLen := 4 }

theorem test_inexpressible_register : HostOp.expressible smallCfg (.rdreg 7) = false := by decide
theorem test_inexpressible_data : HostOp.expressible smallCfg (.wrreg 0 512) = false := by decide
theorem test_inexpressible_cell : HostOp.expressible smallCfg (.rde 16) = false := by decide
theorem test_inexpressible_element : HostOp.expressible smallCfg (.wre 15 256) = false := by decide
theorem test_inexpressible_byte_cell : HostOp.expressible smallCfg (.rdp 16) = false := by decide
theorem test_inexpressible_byte : HostOp.expressible smallCfg (.wrp 15 256) = false := by decide

/-- A core just after reset with source cells and `LEN` loaded. -/
def loaded (c : Config) (n : Nat) (es : List Nat) (ps : List Byte) : State :=
  (((State.resetOf c).withLen n).withEbuf (Memory.writeSeq [] 0 es)).withPbuf (Memory.writeSeq [] 0 ps)

/-- That core with one event issued. -/
def issued (c : Config) (e : Event) (n : Nat) (es : List Nat) (ps : List Byte) : State :=
  (loaded c n es ps).withPending [e]

/-- What a test looks at in a next state. -/
def look {β : Type} (f : State → β) : Host.Outcome State Fault Refusal → Option β
  | .next t => some (f t)
  | .fault _ => none
  | .refused _ => none

/-- The report registers: STATUS, OLEN, ERR_INDEX, ERR_VALUE, ERR_REQ. -/
def report (t : State) : BitVec 3 × Nat × Nat × Nat × BitVec 4 := (t.status, t.olen, t.errIndex, t.errValue, t.errReq)

/-- The refusal of a step that is refused. -/
def refusal : Host.Outcome State Fault Refusal → Option Refusal
  | .next _ => none
  | .fault _ => none
  | .refused r => some r

-- 95_test_vectors.md 2.2: `[1,0,0,0,1,1,0,1]` at 1 gives `[0xB1]`.
theorem test_pack1 :
    look (fun t => (report t, t.pbuf)) (exec .pack1 (loaded smallCfg 8 [1, 0, 0, 0, 1, 1, 0, 1] [])) =
      some ((0b001, 1, 0, 0, 0), [(0, 0xB1)]) := by decide
-- 95_test_vectors.md 2.3: seven elements at 1 give `0b101`, `ERR_REQ = 8`.
theorem test_pack1_misaligned :
    look (fun t => (report t, t.pbuf)) (exec .pack1 (loaded smallCfg 7 [1, 1, 1, 1, 1, 1, 1] [0x77])) =
      some ((0b101, 0, 0, 0, 8), [(0, 0x77)]) := by decide
-- 95_test_vectors.md 2.2: `[0,1,2,3,3,2,1,0]` at 2 gives `[0xE4, 0x1B]`; the cell beyond keeps 0x77 (R99 (a)).
theorem test_pack2 :
    look (fun t => (report t, t.pbuf)) (exec .pack2 (loaded smallCfg 8 [0, 1, 2, 3, 3, 2, 1, 0] [0xFF, 0xFF, 0x77])) =
      some ((0b001, 2, 0, 0, 0), [(0, 0xE4), (1, 0x1B), (2, 0x77)]) := by decide
-- S6: `pack([1, 4, 0, 0], bits=2)` fails with `ValueOutOfRange` at index 1; PBUF[1] is unchanged (R99 (d)).
theorem test_pack2_range :
    look (fun t => (report t, Memory.read t.pbuf 1)) (exec .pack2 (loaded smallCfg 4 [1, 4, 0, 0] [0x11, 0x77])) =
      some ((0b111, 0, 1, 4, 0), some 0x77) := by decide
-- 95_test_vectors.md 2.2: `[7,8,9,6,15,15]` at 4 gives `[0x87, 0x69, 0xFF]`.
theorem test_pack4 :
    look (fun t => (report t, t.pbuf)) (exec .pack4 (loaded smallCfg 6 [7, 8, 9, 6, 15, 15] [])) =
      some ((0b001, 3, 0, 0, 0), [(0, 0x87), (1, 0x69), (2, 0xFF)]) := by decide
-- 95_test_vectors.md 2.3: `[0,16]` at 4 gives `0b111`, `ERR_INDEX = 1`, `ERR_VALUE = 16`.
theorem test_pack4_range :
    look report (exec .pack4 (loaded smallCfg 2 [0, 16] [])) = some (0b111, 0, 1, 16, 0) := by decide
-- 95_test_vectors.md 2.2: `[0xA5, 0x5A, 1]` at 8 is copied.
theorem test_pack8 :
    look (fun t => (report t, t.pbuf)) (exec .pack8 (loaded smallCfg 3 [0xA5, 0x5A, 1] [])) =
      some ((0b001, 3, 0, 0, 0), [(0, 0xA5), (1, 0x5A), (2, 0x01)]) := by decide
-- 95_test_vectors.md 2.3: 8 with `W_ELEM = 16`, `[0,256]` gives `0b111`, `ERR_INDEX = 1`, `ERR_VALUE = 256`.
theorem test_pack8_wide : look report (exec .pack8 (loaded wideCfg 2 [0, 256] [])) = some (0b111, 0, 1, 256, 0) := by
  decide
-- 95_test_vectors.md 2.4: `[0xA5]` at 1 gives `[1,0,1,0,0,1,0,1]`.
theorem test_unpack1 :
    look (fun t => (report t, t.ebuf)) (exec .unpack1 (loaded smallCfg 1 [] [0xA5])) =
      some ((0b001, 8, 0, 0, 0), [(0, 1), (1, 0), (2, 1), (3, 0), (4, 0), (5, 1), (6, 0), (7, 1)]) := by decide
-- 95_test_vectors.md 2.4: at `W_LEN = 4`, `UNPACK 1` with `LEN = 2` is not admitted (16 > 15).
theorem test_unpack1_not_admitted :
    refusal (exec .unpack1 (loaded smallCfg 2 [] [0xA5, 0xA5])) = some .unpackNotAdmitted := by decide
-- 95_test_vectors.md 2.4: `[0xB1]` at 2 gives `[1,0,3,2]`, and `EBUF[4] = 9` beforehand stays.
theorem test_unpack2 :
    look (fun t => (report t, t.ebuf)) (exec .unpack2 (loaded smallCfg 1 [7, 7, 7, 7, 9] [0xB1])) =
      some ((0b001, 4, 0, 0, 0), [(0, 1), (1, 0), (2, 3), (3, 2), (4, 9)]) := by decide
-- 95_test_vectors.md 2.4: with `W_ELEM = 16` and `EBUF[0] = 0xFFFF` beforehand the whole cell is written, `0x0001`.
theorem test_unpack2_whole_cell :
    look (fun t => Memory.read t.ebuf 0) (exec .unpack2 (loaded wideCfg 1 [0xFFFF] [0xB1])) = some (some 1) := by decide
-- 95_test_vectors.md 2.4: `[0xA5, 0x5A]` at 4 gives `[5,10,10,5]`.
theorem test_unpack4 :
    look (fun t => (report t, t.ebuf)) (exec .unpack4 (loaded smallCfg 2 [] [0xA5, 0x5A])) =
      some ((0b001, 4, 0, 0, 0), [(0, 5), (1, 10), (2, 10), (3, 5)]) := by decide
-- 95_test_vectors.md 2.4: `[0x21, 0x43]` at 8 gives `[33,67]`.
theorem test_unpack8 :
    look (fun t => (report t, t.ebuf)) (exec .unpack8 (loaded smallCfg 2 [] [0x21, 0x43])) =
      some ((0b001, 2, 0, 0, 0), [(0, 33), (1, 67)]) := by decide
-- 95_test_vectors.md 2.3: `BITS = 3` on `[9,9,9]` gives `0b011`, `ERR_VALUE = 3`: the width wins over everything.
theorem test_pack_unsupported :
    look report (exec (.packUnsupported 3) (loaded smallCfg 3 [9, 9, 9] [])) = some (0b011, 0, 0, 3, 0) := by decide
-- 95_test_vectors.md 2.6: `WRREG 0, 0x1FF` stores `0x1FF`, `STATUS = 0b011`, `ERR_VALUE = 255`.
theorem test_unpack_unsupported :
    look (fun t => (t.cmd, report t)) (step (issued smallCfg (.op (.wrreg 0 0x1FF)) 15 [] [])) =
      some (0x1FF, 0b011, 0, 0, 255, 0) := by decide

-- 95_test_vectors.md 2.6: `WRREG 2, 7` after reset is ignored.
theorem test_wrreg_status_ignored :
    step (issued smallCfg (.op (.wrreg 2 7)) 0 [] []) = .next (loaded smallCfg 0 [] []) := rfl
-- 95_test_vectors.md 2.6: `WRE 3, 200` checks no range, and a read of the cell returns 200 (one step each).
theorem test_wre : look (fun t => t.ebuf) (step (issued smallCfg (.op (.wre 3 200)) 0 [] [])) = some [(3, 200)] := by
  decide
theorem test_rde : look (fun t => t.replies) (step (issued smallCfg (.op (.rde 3)) 0 [0, 0, 0, 200] [])) = some [200] := by
  decide
-- 95_test_vectors.md 2.6: `WRP 2, 0xAB` and `RDP 2`.
theorem test_wrp : look (fun t => t.pbuf) (step (issued smallCfg (.op (.wrp 2 0xAB)) 0 [] [])) = some [(2, 0xAB)] := by
  decide
theorem test_rdp :
    look (fun t => t.replies) (step (issued smallCfg (.op (.rdp 2)) 0 [] [0, 0, 0xAB])) = some [0xAB] := by decide
-- R72: `LOADE [1, 0]` is `WRE 0, 1`; `WRE 1, 0`; `WRREG 1, 2`, and `UNPACK 2` is `WRREG 0, 0x102` (P1, position 14).
theorem test_expand :
    (expandPseudo (.loadE [1, 0]), expandPseudo (.unpack 2)) =
      ([.wre 0 1, .wre 1 0, .wrreg 1 2], [.wrreg 0 0x102]) := by decide
-- The first command after reset: `LEN = 0`, so `PACK 1` succeeds with `OLEN = 0` (S10).
theorem test_first_command : look report (step (State.reset.withFetchWord 16 0x001)) = some (0b001, 0, 0, 0, 0) := by
  decide

/-! Witnesses: states and operands that meet the hypotheses of each statement together, at boundary values. -/

/-- A way to show that every element cell below `n` is written and in range. -/
theorem inRange_of_all {s : State} {n m : Nat}
    (h : ∀ k < n, (Memory.read s.ebuf k).any (fun v => decide (v ≤ m)) = true) : s.ElementsInRange n m := by
  intro k hk
  have hk' := h k hk
  cases hv : Memory.read s.ebuf k with
  | none => rw [hv] at hk'; cases hk'
  | some v => rw [hv] at hk'; exact ⟨v, rfl, by simpa using hk'⟩

/-- A valid input for each width that fills the smallest core as far as it goes. -/
def ones : State := loaded smallCfg 8 [1, 0, 0, 0, 1, 1, 0, 1] [0xA5]

theorem ones_inRange (m : Nat) (hm : 1 ≤ m) : ones.ElementsInRange ones.len m := by
  have h : ones.ElementsInRange ones.len 1 := inRange_of_all (by decide)
  intro k hk
  obtain ⟨v, hv, h1⟩ := h k hk
  exact ⟨v, hv, by omega⟩

theorem ones_inv : ones.Inv := by constructor <;> decide

theorem ones_reportOk : ones.ReportOk := by constructor <;> decide

theorem witness_unsupported_words :
    isSupported (bitsField 0x000) = false ∧ isSupported (bitsField 0x003) = false ∧
      isSupported (bitsField 0x1FF) = false := by decide

theorem witness_IllegalWordRaisesInvalidBitWidth :
    isSupported (bitsField 0x009) = false ∧
      (issued smallCfg (.op (.wrreg 0 (0x009 : CmdWord).toNat)) 15 [] []).pending =
        [.op (.wrreg 0 (0x009 : CmdWord).toNat)] := by decide

theorem witness_UnsupportedWidthCompletes : isSupported 0 = false ∧ isSupported 255 = false := by decide

theorem witness_MuxIdentities : (ratioMux 1).valid = true ∧ (ratioMux 8).valid = true := by decide

theorem witness_ShiftStaysInByte : isSupported 1 = true ∧ 7 < (ratioMux 1).ratio.toNat ∧ isSupported 8 = true ∧
    0 < (ratioMux 8).ratio.toNat := by decide

theorem witness_ResetLeavesRegistersZero : (issued smallCfg .reset 8 [1] [0xB1]).pending = [.reset] := rfl

theorem witness_ResetMeetsInvariants : smallCfg.Ok ∧ wideCfg.Ok ∧ Config.default.Ok := by decide

theorem witness_StepKeepsWidths : ones.Inv ∧ ∃ t, step (ones.withPending [.op (.wre 15 255)]) = .next t :=
  ⟨ones_inv, _, rfl⟩

theorem witness_StepKeepsReportsConsistent :
    ones.ReportOk ∧ ∃ t, step (ones.withPending [.op (.wrreg 0 0x003)]) = .next t := ⟨ones_reportOk, _, rfl⟩

theorem witness_StepRunsIssuedCommand :
    (issued smallCfg (.op (.wrreg 0 (0x102 : CmdWord).toNat)) 1 [] [0xB1]).pending =
      [.op (.wrreg 0 (0x102 : CmdWord).toNat)] := rfl

theorem witness_PlacedWordRunsNext : 9 ≤ 9 ∧ 511 < 2 ^ 9 ∧ 9 ≤ 16 := by decide

theorem witness_IdleCoreChangesNothing : State.reset.pending = [] := rfl

theorem witness_RegisterReadReturnsValue :
    (issued smallCfg (.op (.rdreg 0)) 0 [] []).pending = [.op (.rdreg 0)] ∧
      (issued smallCfg (.op (.rdreg 6)) 0 [] []).pending = [.op (.rdreg 6)] := ⟨rfl, rfl⟩

theorem witness_RegisterWriteStoresLenOnly :
    (issued smallCfg (.op (.wrreg 1 15)) 0 [] []).pending = [.op (.wrreg 1 15)] ∧ 15 < 2 ^ smallCfg.wLen ∧
      (issued smallCfg (.op (.wrreg 2 7)) 0 [] []).pending = [.op (.wrreg 2 7)] ∧ 7 < 2 ^ 3 ∧
      (issued smallCfg (.op (.wrreg 5 255)) 0 [] []).pending = [.op (.wrreg 5 255)] ∧ 255 < 2 ^ smallCfg.wElem ∧
      (issued smallCfg (.op (.wrreg 6 15)) 0 [] []).pending = [.op (.wrreg 6 15)] ∧ 15 < 2 ^ 4 := by decide

theorem witness_ElementWriteStoresCell :
    (issued smallCfg (.op (.wre 15 255)) 0 [] []).pending = [.op (.wre 15 255)] ∧ 15 < 2 ^ smallCfg.wLen ∧
      255 < 2 ^ smallCfg.wElem := by decide

theorem witness_ByteWriteStoresCell :
    (issued smallCfg (.op (.wrp 15 (0xFF : Byte).toNat)) 0 [] []).pending = [.op (.wrp 15 (0xFF : Byte).toNat)] ∧
      15 < 2 ^ smallCfg.wLen := by decide

theorem witness_WrittenCellReadReturnsValue :
    (issued smallCfg (.op (.rde 0)) 0 [7] []).pending = [.op (.rde 0)] ∧
      Memory.read (issued smallCfg (.op (.rde 0)) 0 [7] []).ebuf 0 = some 7 ∧
      (issued smallCfg (.op (.rdp 0)) 0 [] [0x77]).pending = [.op (.rdp 0)] ∧
      Memory.read (issued smallCfg (.op (.rdp 0)) 0 [] [0x77]).pbuf 0 = some 0x77 := by decide

theorem witness_UnwrittenCellReadCompletes :
    (issued smallCfg (.op (.rde 15)) 0 [7] []).pending = [.op (.rde 15)] ∧ 15 < 2 ^ smallCfg.wLen ∧
      Memory.read (issued smallCfg (.op (.rde 15)) 0 [7] []).ebuf 15 = none ∧
      (issued smallCfg (.op (.rdp 15)) 0 [] [7]).pending = [.op (.rdp 15)] ∧
      Memory.read (issued smallCfg (.op (.rdp 15)) 0 [] [7]).pbuf 15 = none := by decide

theorem witness_InexpressibleAccessRefused :
    6 < 7 ∧ (issued smallCfg (.op (.rdreg 7)) 0 [] []).pending = [.op (.rdreg 7)] ∧
      (issued smallCfg (.op (.wrreg 7 0)) 0 [] []).pending = [.op (.wrreg 7 0)] ∧
      Reg.ofNumber 6 = some .errReq ∧ 2 ^ Reg.width smallCfg .errReq ≤ 16 ∧
      (issued smallCfg (.op (.wrreg 6 16)) 0 [] []).pending = [.op (.wrreg 6 16)] ∧
      2 ^ smallCfg.wLen ≤ 16 ∧ (issued smallCfg (.op (.rde 16)) 0 [] []).pending = [.op (.rde 16)] ∧
      2 ^ smallCfg.wElem ≤ 256 ∧ (issued smallCfg (.op (.wre 15 256)) 0 [] []).pending = [.op (.wre 15 256)] ∧
      2 ^ 8 ≤ 256 ∧ (issued smallCfg (.op (.wrp 15 256)) 0 [] []).pending = [.op (.wrp 15 256)] := by decide

theorem witness_StepGoesOnIffPermitted :
    eventPermitted ones (.op (.wrreg 0 0x108)) = true ∧ eventPermitted ones (.op (.wrreg 0 0x101)) = false := by decide

theorem witness_StepWritesOnlyItsRow :
    (∃ t, step (ones.withPending [.op (.wrreg 0 0x001)]) = .next t ∧ t.cmd ≠ ones.cmd ∧
      Memory.read t.pbuf 0 ≠ Memory.read ones.pbuf 0) ∧
    (∃ t, step (ones.withPending [.op (.wrreg 1 1)]) = .next t ∧ t.len ≠ ones.len) ∧
    ∃ t, step (ones.withPending [.op (.wre 15 1)]) = .next t ∧ Memory.read t.ebuf 15 ≠ Memory.read ones.ebuf 15 :=
  ⟨⟨_, rfl, by decide, by decide⟩, ⟨_, rfl, by decide⟩, ⟨_, rfl, by decide⟩⟩

theorem witness_CommandNeverWritesSource :
    (Instr.pack1.op = 0 ∧ ∃ t, exec .pack1 ones = .next t) ∧ Instr.unpack8.op = 1 ∧ ∃ t, exec .unpack8 ones = .next t :=
  ⟨⟨rfl, _, rfl⟩, rfl, _, rfl⟩

theorem witness_PackSucceedsWithFrame :
    ∀ i ∈ legalPacks, ones.len % ratioOf i = 0 ∧ ones.ElementsInRange ones.len (maskOf i) := by
  intro i hi
  have h : ∀ i ∈ legalPacks, ones.len % ratioOf i = 0 ∧ 1 ≤ maskOf i := by decide
  exact ⟨(h i hi).1, ones_inRange _ (h i hi).2⟩

theorem witness_PackOneBit :
    (loaded smallCfg 7 [] []).len % 8 ≠ 0 ∧
      ((loaded smallCfg 8 [0, 0, 0, 0, 0, 0, 0, 2] []).len % 8 = 0 ∧
        ∃ k < (loaded smallCfg 8 [0, 0, 0, 0, 0, 0, 0, 2] []).len, ∃ v,
          Memory.read (loaded smallCfg 8 [0, 0, 0, 0, 0, 0, 0, 2] []).ebuf k = some v ∧ 1 < v) ∧
      ones.len % 8 = 0 ∧ ones.ElementsInRange ones.len 1 :=
  ⟨by decide, ⟨by decide, 7, by decide, 2, by decide, by decide⟩, by decide, ones_inRange _ (by decide)⟩

theorem witness_PackTwoBits :
    (loaded smallCfg 3 [] []).len % 4 ≠ 0 ∧
      ((loaded smallCfg 4 [0, 0, 0, 4] []).len % 4 = 0 ∧
        ∃ k < (loaded smallCfg 4 [0, 0, 0, 4] []).len, ∃ v,
          Memory.read (loaded smallCfg 4 [0, 0, 0, 4] []).ebuf k = some v ∧ 3 < v) ∧
      ones.len % 4 = 0 ∧ ones.ElementsInRange ones.len 3 :=
  ⟨by decide, ⟨by decide, 3, by decide, 4, by decide, by decide⟩, by decide, ones_inRange _ (by decide)⟩

theorem witness_PackFourBits :
    (loaded smallCfg 5 [] []).len % 2 ≠ 0 ∧
      ((loaded smallCfg 2 [0, 16] []).len % 2 = 0 ∧
        ∃ k < (loaded smallCfg 2 [0, 16] []).len, ∃ v,
          Memory.read (loaded smallCfg 2 [0, 16] []).ebuf k = some v ∧ 15 < v) ∧
      ones.len % 2 = 0 ∧ ones.ElementsInRange ones.len 15 :=
  ⟨by decide, ⟨by decide, 1, by decide, 16, by decide, by decide⟩, by decide, ones_inRange _ (by decide)⟩

theorem witness_PackEightBits :
    (ones.cfg.wElem = 8 ∧ ones.Inv ∧ ∃ t, exec .pack8 ones = .next t) ∧
      (∃ k < (loaded wideCfg 2 [0, 256] []).len, ∃ v,
        Memory.read (loaded wideCfg 2 [0, 256] []).ebuf k = some v ∧ 255 < v) ∧
      ones.ElementsInRange ones.len 255 :=
  ⟨⟨rfl, ones_inv, _, rfl⟩, ⟨1, by decide, 256, by decide, by decide⟩, ones_inRange _ (by decide)⟩

theorem witness_MisalignedLengthRecorded :
    ∀ i ∈ [Instr.pack1, .pack2, .pack4], (loaded smallCfg 15 [] []).len % ratioOf i ≠ 0 := by decide

theorem witness_ValueOutOfRangeRecorded :
    (loaded smallCfg 4 [1, 4, 0, 0] []).len % ratioOf .pack2 = 0 ∧ 1 < (loaded smallCfg 4 [1, 4, 0, 0] []).len ∧
      Memory.read (loaded smallCfg 4 [1, 4, 0, 0] []).ebuf 1 = some 4 ∧ maskOf .pack2 < 4 ∧
      (loaded smallCfg 4 [1, 4, 0, 0] []).ElementsInRange 1 (maskOf .pack2) :=
  ⟨by decide, by decide, by decide, by decide, inRange_of_all (by decide)⟩

theorem witness_RangeErrorKeepsCellsAbove :
    ∃ t, exec .pack2 (loaded smallCfg 4 [1, 4, 0, 0] [0x11, 0x77]) = .next t ∧ t.status = 0b111 := ⟨_, rfl, by decide⟩

theorem witness_PackErrorPriority :
    (isSupported (Instr.packUnsupported 3).bits = false ∧ (loaded smallCfg 3 [9, 9, 9] []).ElementsWritten 3) ∧
      ((loaded smallCfg 3 [1, 4, 0] []).ElementsWritten 3 ∧ (loaded smallCfg 3 [1, 4, 0] []).len % ratioOf .pack2 ≠ 0) ∧
      ((loaded smallCfg 4 [5, 4, 0, 0] []).ElementsWritten 4 ∧
        (∃ v, Memory.read (loaded smallCfg 4 [5, 4, 0, 0] []).ebuf 0 = some v ∧ maskOf .pack2 < v) ∧
        (loaded smallCfg 4 [5, 4, 0, 0] []).ElementsInRange 0 (maskOf .pack2)) ∧
      ones.ElementsWritten 8 ∧ ones.ElementsInRange ones.len (maskOf .pack2) :=
  ⟨⟨by decide, by unfold State.ElementsWritten; decide⟩, ⟨by unfold State.ElementsWritten; decide, by decide⟩,
    ⟨by unfold State.ElementsWritten; decide, ⟨5, by decide, by decide⟩, fun _ hk => absurd hk (by omega)⟩,
    by unfold State.ElementsWritten; decide, ones_inRange _ (by decide)⟩

theorem witness_PackAlwaysCompletes : (Instr.packUnsupported 0).op = 0 ∧ Instr.pack8.op = 0 := by decide

theorem witness_PackedByteIsSum :
    isSupported 1 = true ∧ (∀ j < (ratioMux 1).ratio.toNat, ((fun _ => 1 : Nat → Byte) j).toNat ≤ (ratioMux 1).mask.toNat) ∧
      isSupported 8 = true ∧
      ∀ j < (ratioMux 8).ratio.toNat, ((fun _ => 0xFF : Nat → Byte) j).toNat ≤ (ratioMux 8).mask.toNat := by decide

/-- `ones` after another command, with another destination and another report. -/
def onesElsewhere : State := (ones.withPbuf [(0, 0xFF), (3, 0x77)]).withReport 0b111 0 2 9 0

theorem witness_OutcomeDependsOnInputsOnly :
    onesElsewhere.cfg = ones.cfg ∧ onesElsewhere.len = ones.len ∧ ones.ElementsWritten ones.len ∧
      (∀ k < ones.len, Memory.read onesElsewhere.ebuf k = Memory.read ones.ebuf k) ∧
      (∃ t, exec .pack1 ones = .next t) ∧
      (loaded smallCfg 1 [] [0xB1]).BytesWritten 1 ∧ ∃ t, exec .unpack1 (loaded smallCfg 1 [] [0xB1]) = .next t :=
  ⟨rfl, rfl, by unfold State.ElementsWritten; decide, by decide, ⟨_, rfl⟩, by unfold State.BytesWritten; decide,
    ⟨_, rfl⟩⟩

theorem witness_UnpackAdmitted :
    1 * 8 ≤ 2 ^ smallCfg.wLen - 1 ∧ 3 * 4 ≤ 2 ^ smallCfg.wLen - 1 ∧ 7 * 2 ≤ 2 ^ smallCfg.wLen - 1 ∧
      15 < 2 ^ smallCfg.wLen ∧ Memory.read (loaded smallCfg 1 [] [0xB1]).pbuf 0 = some 0xB1 := by decide

theorem witness_UnpackSucceedsWithFrame :
    ∀ i ∈ legalUnpacks, (loaded smallCfg 1 [] [0xB1]).len * ratioOf i ≤
      2 ^ (loaded smallCfg 1 [] [0xB1]).cfg.wLen - 1 := by decide

theorem witness_UnpackAdmission :
    2 ^ smallCfg.wLen - 1 < 2 * ratioOf .unpack1 ∧ 2 ^ smallCfg.wLen - 1 < 4 * ratioOf .unpack2 ∧
      2 ^ smallCfg.wLen - 1 < 8 * ratioOf .unpack4 ∧ isSupported 3 = false := by decide

theorem witness_UnpackRaisesInvalidBitWidthOnly :
    Instr.unpack2.op = 1 ∧ (∃ t, exec .unpack2 (loaded smallCfg 3 [] [1, 2, 3]) = .next t) ∧
      (Instr.unpackUnsupported 7).op = 1 ∧ ∃ t, exec (.unpackUnsupported 7) (loaded smallCfg 0 [] []) = .next t :=
  ⟨rfl, ⟨_, rfl⟩, rfl, ⟨_, rfl⟩⟩

theorem witness_PackThenUnpackRestores :
    ∀ p ∈ codecPairs, ones.len < 2 ^ ones.cfg.wLen ∧ ones.len % ratioOf p.1 = 0 ∧
      ones.ElementsInRange ones.len (maskOf p.1) := by
  intro p hp
  have h : ∀ p ∈ codecPairs, ones.len < 2 ^ ones.cfg.wLen ∧ ones.len % ratioOf p.1 = 0 ∧ 1 ≤ maskOf p.1 := by decide
  exact ⟨(h p hp).1, (h p hp).2.1, ones_inRange _ (h p hp).2.2⟩

theorem witness_UnpackThenPackRestores :
    ∀ p ∈ codecPairs, (loaded smallCfg 1 [] [0xA5]).len * ratioOf p.2 ≤
      2 ^ (loaded smallCfg 1 [] [0xA5]).cfg.wLen - 1 ∧ (loaded smallCfg 1 [] [0xA5]).BytesWritten 1 := by
  intro p hp
  exact ⟨(by decide : ∀ p ∈ codecPairs, (loaded smallCfg 1 [] [0xA5]).len * ratioOf p.2 ≤
    2 ^ (loaded smallCfg 1 [] [0xA5]).cfg.wLen - 1) p hp, by unfold State.BytesWritten; decide⟩

theorem witness_LengthLaw :
    (∃ t, exec .pack2 ones = .next t ∧ t.status = 0b001) ∧
      ∃ t, exec .unpack1 (loaded smallCfg 1 [] [0xA5]) = .next t ∧ t.status = 0b001 :=
  ⟨⟨_, rfl, by decide⟩, ⟨_, rfl, by decide⟩⟩

theorem witness_EmptyInputSucceeds : (loaded smallCfg 0 [] []).len = 0 := rfl

end Sys2Proof.Tests
end

