-- ==== Sys2Proof/Proofs/Scope.lean ====
section
/-! PROOFS. The family 00_scope: the idle step, the width invariant, and what the outcome of a command depends on. -/

namespace Sys2Proof.Machine

/-! The idle step (R3). -/

/-- Settles O16: an empty list of pending events is the idle case of `takeEvent`. -/
theorem idleCoreChangesNothing : Obligations.IdleCoreChangesNothing := by
  intro s hp
  rw [step, takeEvent, hp]

/-! The width invariant: one rule per state operation, then one per command, then the step. -/

section Inv

variable {s : State}

/-- An 8-bit value fits an element cell, since `W_ELEM >= 8` (R8). -/
theorem State.Inv.byte_fits (h : s.Inv) {v : Nat} (hv : v < 2 ^ 8) : v < 2 ^ s.cfg.wElem :=
  Nat.lt_of_lt_of_le hv (Nat.pow_le_pow_right (by decide) h.cfgOk.1)

theorem State.Inv.withCmd (h : s.Inv) (w : CmdWord) : (s.withCmd w).Inv := { h with }

theorem State.Inv.withPending (h : s.Inv) (es : List Event) : (s.withPending es).Inv := { h with }

theorem State.Inv.withReply (h : s.Inv) (v : Nat) : (s.withReply v).Inv := { h with }

theorem State.Inv.nextDraw (h : s.Inv) : s.nextDraw.Inv := { h with }

theorem State.Inv.drawIfUnwritten (h : s.Inv) {α : Type} (c : Option α) : (drawIfUnwritten c s).Inv := by
  cases c with
  | none => exact h.nextDraw
  | some _ => exact h

theorem State.Inv.withLen (h : s.Inv) {n : Nat} (hn : n < 2 ^ s.cfg.wLen) : (s.withLen n).Inv :=
  { h with lenFits := hn }

theorem State.Inv.withReport (h : s.Inv) (st : BitVec 3) {ol ei ev : Nat} (er : BitVec 4)
    (hol : ol < 2 ^ s.cfg.wLen) (hei : ei < 2 ^ s.cfg.wLen) (hev : ev < 2 ^ s.cfg.wElem) :
    (s.withReport st ol ei ev er).Inv :=
  { h with olenFits := hol, errIndexFits := hei, errValueFits := hev }

theorem State.Inv.withEbuf (h : s.Inv) {m : Memory Nat} (hwf : Memory.wf m)
    (hfit : ∀ c ∈ m, c.1 < 2 ^ s.cfg.wLen ∧ c.2 < 2 ^ s.cfg.wElem) : (s.withEbuf m).Inv :=
  { h with ebufWf := hwf, ebufFits := hfit }

theorem State.Inv.withPbuf (h : s.Inv) {m : Memory Byte} (hwf : Memory.wf m)
    (hfit : ∀ c ∈ m, c.1 < 2 ^ s.cfg.wLen) : (s.withPbuf m).Inv :=
  { h with pbufWf := hwf, pbufFits := hfit }

/-- Reset leaves every register 0 and both buffers empty (R26, R170). -/
theorem State.Inv.resetCore (h : s.Inv) : s.resetCore.Inv where
  cfgOk := h.cfgOk
  lenFits := Nat.two_pow_pos _
  olenFits := Nat.two_pow_pos _
  errIndexFits := Nat.two_pow_pos _
  errValueFits := Nat.two_pow_pos _
  ebufWf := Memory.wf_nil
  ebufFits := List.forall_mem_nil _
  pbufWf := Memory.wf_nil
  pbufFits := List.forall_mem_nil _

theorem State.Inv.writeElement (h : s.Inv) {i v : Nat} (hi : i < 2 ^ s.cfg.wLen) (hv : v < 2 ^ s.cfg.wElem) :
    (s.withEbuf (Memory.write s.ebuf i v)).Inv :=
  h.withEbuf (Memory.wf_write h.ebufWf _ _) fun c hc => by
    rcases Memory.mem_write hc with rfl | hc
    · exact ⟨hi, hv⟩
    · exact h.ebufFits c hc

theorem State.Inv.writeByte (h : s.Inv) {i : Nat} (p : Byte) (hi : i < 2 ^ s.cfg.wLen) :
    (s.withPbuf (Memory.write s.pbuf i p)).Inv :=
  h.withPbuf (Memory.wf_write h.pbufWf _ _) fun c hc => by
    rcases Memory.mem_write hc with rfl | hc
    · exact hi
    · exact h.pbufFits c hc

theorem State.Inv.writeElements (h : s.Inv) {vs : List Nat} (hlen : vs.length < 2 ^ s.cfg.wLen)
    (hvs : ∀ v ∈ vs, v < 2 ^ s.cfg.wElem) : (s.withEbuf (Memory.writeSeq s.ebuf 0 vs)).Inv :=
  h.withEbuf (Memory.wf_writeSeq h.ebufWf _ _) fun c hc => by
    rcases Memory.mem_writeSeq hc with ⟨hmem, -, hidx⟩ | hc
    · exact ⟨by omega, hvs _ hmem⟩
    · exact h.ebufFits c hc

theorem State.Inv.writeBytes (h : s.Inv) {ps : List Byte} (hlen : ps.length < 2 ^ s.cfg.wLen) :
    (s.withPbuf (Memory.writeSeq s.pbuf 0 ps)).Inv :=
  h.withPbuf (Memory.wf_writeSeq h.pbufWf _ _) fun c hc => by
    rcases Memory.mem_writeSeq hc with ⟨-, -, hidx⟩ | hc
    · omega
    · exact h.pbufFits c hc

theorem State.Inv.redrawPbuf (h : s.Inv) (m : Nat) : (s.redrawPbuf m).Inv :=
  h.withPbuf (Memory.wf_redraw h.pbufWf _ _) fun c hc => by
    obtain ⟨p, hp⟩ := Memory.mem_redraw hc
    exact h.pbufFits (c.1, p) hp

theorem State.Inv.raised (h : s.Inv) {e : CmdError} (hidx : e.reportIndex < 2 ^ s.cfg.wLen)
    (hval : e.reportValue < 2 ^ s.cfg.wElem) : (raised e s).Inv :=
  (h.withReport _ _ (Nat.two_pow_pos _) hidx hval).nextDraw

theorem State.Inv.succeeded (h : s.Inv) {m : Nat} (hm : m < 2 ^ s.cfg.wLen) : (succeeded m s).Inv :=
  (h.withReport _ _ hm (Nat.two_pow_pos _) (Nat.two_pow_pos _)).nextDraw

theorem State.Inv.raised_invalidBitWidth (h : s.Inv) (b : Byte) :
    (Machine.raised (.invalidBitWidth b) s).Inv :=
  h.raised (Nat.two_pow_pos _) (h.byte_fits b.isLt)

/-- PACK writes at most `LEN` bytes and reports an index below `LEN` with the value of that cell. -/
theorem packCommand_inv {t : State} {b : Byte} (h : s.Inv) (ht : packCommand b s = .next t) : t.Inv := by
  rcases packCommand_cases b s with ⟨-, hc⟩ | ⟨-, -, hc⟩ | ⟨-, -, k, hk, hc⟩ | ⟨-, -, -, hc⟩ <;>
    obtain rfl := Host.Outcome.next.inj (hc.symm.trans ht)
  case inl => exact h.raised_invalidBitWidth b
  case inr.inl => exact h.raised (Nat.two_pow_pos _) (Nat.two_pow_pos _)
  case inr.inr.inl =>
    have hklen : k < s.len := (firstOutOfRange_some.mp hk).1
    exact (h.redrawPbuf _).raised (hklen.trans h.lenFits) (elementRead_lt (fun c hc => (h.ebufFits c hc).2) _ _)
  case inr.inr.inr =>
    have hm : s.len / (ratioMux b).ratio.toNat < 2 ^ s.cfg.wLen := (Nat.div_le_self _ _).trans_lt h.lenFits
    exact (h.writeBytes (by simpa using hm)).succeeded hm

/-- An UNPACK that is admitted writes fewer than `2^W_LEN` elements, each at most `MASK`. -/
theorem unpackCommand_inv {t : State} {b : Byte} (h : s.Inv) (ht : unpackCommand b s = .next t) : t.Inv := by
  rcases unpackCommand_cases b s with ⟨-, hc⟩ | ⟨-, -, hc⟩ | ⟨-, hfit, hc⟩ <;> rw [hc] at ht <;> cases ht
  case inl => exact h.raised_invalidBitWidth b
  case inr.inr =>
    have hm : s.len * (ratioMux b).ratio.toNat < 2 ^ s.cfg.wLen := by
      have := Nat.two_pow_pos s.cfg.wLen
      omega
    exact (h.writeElements (by simpa using hm) fun v hv =>
      h.byte_fits ((unpackedElements_le hv).trans_lt (BitVec.isLt _))).succeeded hm

theorem exec_inv {t : State} {i : Instr} (h : s.Inv) (ht : exec i s = .next t) : t.Inv := by
  rw [exec_eq] at ht
  split at ht
  · exact packCommand_inv h ht
  · exact unpackCommand_inv h ht

end Inv

/-- Settles O12: each row of `step_next_cases` is one rule of the width invariant. -/
theorem stepKeepsWidths : Obligations.StepKeepsWidths := by
  intro s t hs ht
  rcases step_next_cases ht with ⟨-, rfl⟩ | ⟨e, rest, -, hrow⟩
  · exact hs
  have hs' : (s.withPending rest).Inv := hs.withPending rest
  rcases hrow with ⟨-, rfl⟩ | ⟨k, r, -, -, rfl⟩ | ⟨w, -, -, hexec⟩ | ⟨n, -, hn, rfl⟩ | ⟨k, v, -, -, -, rfl⟩ |
    ⟨i, -, -, rfl⟩ | ⟨i, v, -, hi, hv, rfl⟩ | ⟨i, -, -, rfl⟩ | ⟨i, v, -, hi, -, rfl⟩
  · exact hs'.resetCore
  · exact hs'.withReply _
  · exact exec_inv (hs'.withCmd _) hexec
  · exact hs'.withLen hn
  · exact hs'
  · exact (hs'.withReply _).drawIfUnwritten _
  · exact hs'.writeElement hi hv
  · exact (hs'.withReply _).drawIfUnwritten _
  · exact hs'.writeByte _ hi

/-! What a command reads: two states whose source cells below `LEN` are written and equal give every read of it the same
value, whatever their draw numbers are. -/

section Agreement

variable {s s' t : State} {b : Byte}

theorem elementRead_congr {k : Nat} (hw : (Memory.read s.ebuf k).isSome)
    (hr : Memory.read s'.ebuf k = Memory.read s.ebuf k) (d : Draw) : elementRead s' d k = elementRead s d k := by
  obtain ⟨v, hv⟩ := Option.isSome_iff_exists.mp hw
  rw [elementRead_written d hv, elementRead_written d (hr.trans hv)]

theorem byteRead_congr {i : Nat} (hw : (Memory.read s.pbuf i).isSome)
    (hr : Memory.read s'.pbuf i = Memory.read s.pbuf i) (d : Draw) : byteRead s' d i = byteRead s d i := by
  obtain ⟨p, hp⟩ := Option.isSome_iff_exists.mp hw
  rw [byteRead_written d hp, byteRead_written d (hr.trans hp)]

theorem packByte_congr (b : Byte) {ratio : Nat} {e e' : Nat → Byte} (h : ∀ j < ratio, e' j = e j) :
    packByte b ratio e' = packByte b ratio e :=
  List.foldl_ext _ _ _ fun byte j hj => by rw [h j (List.mem_range.mp hj)]

/-- Field `j` of byte `i` comes from element `i * RATIO + j`, which is below `LEN`. -/
theorem packedBytes_congr (b : Byte) {ratio : Nat} (hlen : s'.len = s.len)
    (h : ∀ k < s.len, assembledElement s' k = assembledElement s k) :
    packedBytes b ratio s' = packedBytes b ratio s := by
  rw [packedBytes, packedBytes, hlen]
  refine List.map_congr_left fun i hi => packByte_congr b fun j hj => h _ ?_
  have hblock : (i + 1) * ratio ≤ s.len :=
    (Nat.mul_le_mul_right _ (List.mem_range.mp hi)).trans (Nat.div_mul_le_self _ _)
  rw [Nat.add_mul] at hblock
  omega

/-- Element `e` comes from byte `e / RATIO`, which is below `LEN`. -/
theorem unpackedElements_congr (b mask : Byte) {ratio : Nat} (hlen : s'.len = s.len)
    (h : ∀ i < s.len, sourceByte s' i = sourceByte s i) :
    unpackedElements b ratio mask s' = unpackedElements b ratio mask s := by
  rw [unpackedElements, unpackedElements, hlen]
  refine List.map_congr_left fun e he => ?_
  rw [h _ (Nat.div_lt_of_lt_mul (Nat.mul_comm _ _ ▸ List.mem_range.mp he))]

/-- Two states hold the same report of a command (R16 to R20). -/
def SameReport (t t' : State) : Prop :=
  t'.status = t.status ∧ t'.olen = t.olen ∧ t'.errIndex = t.errIndex ∧ t'.errValue = t.errValue ∧ t'.errReq = t.errReq

theorem sameReport_raised (e : CmdError) (s s' : State) : SameReport (raised e s) (raised e s') :=
  ⟨rfl, rfl, rfl, rfl, rfl⟩

theorem sameReport_succeeded (m : Nat) (s s' : State) : SameReport (succeeded m s) (succeeded m s') :=
  ⟨rfl, rfl, rfl, rfl, rfl⟩

/-- Two sequences stored from cell 0 that are one sequence read alike, whatever the buffers held before. -/
theorem Memory.read_writeSeq_zero_congr {α : Type} (m m' : Memory α) (vs : List α) {k : Nat} (hk : k < vs.length) :
    Memory.read (Memory.writeSeq m' 0 vs) k = Memory.read (Memory.writeSeq m 0 vs) k := by
  rw [Memory.read_writeSeq_zero _ _ hk, Memory.read_writeSeq_zero _ _ hk]

/-- After an error `OLEN` is 0, so only the report is to be compared; after a success the bytes are the same. -/
theorem packCommand_agrees (hlen : s'.len = s.len) (hw : s.ElementsWritten s.len)
    (hr : ∀ k < s.len, Memory.read s'.ebuf k = Memory.read s.ebuf k) (ht : packCommand b s = .next t) :
    ∃ t', packCommand b s' = .next t' ∧ SameReport t t' ∧
      ∀ k < t.olen, Memory.read t'.pbuf k = Memory.read t.pbuf k := by
  have hread (d : Draw) : ∀ k < s.len, elementRead s' d k = elementRead s d k :=
    fun k hk => elementRead_congr (hw k hk) (hr k hk) d
  have hchecked : ∀ k < s.len, checkedElement s' k = checkedElement s k := fun k hk => hread _ k hk
  rcases packCommand_cases b s with ⟨hb, hc⟩ | ⟨hb, hn, hc⟩ | ⟨hb, hn, k, hk, hc⟩ | ⟨hb, hn, hrange, hc⟩ <;>
    obtain rfl := Host.Outcome.next.inj (hc.symm.trans ht)
  case inl => exact ⟨_, packCommand_invalid hb, sameReport_raised _ _ _, fun _ hk => (Nat.not_lt_zero _ hk).elim⟩
  case inr.inl =>
    exact ⟨_, packCommand_misaligned hb (hlen ▸ hn), sameReport_raised _ _ _, fun _ hk => (Nat.not_lt_zero _ hk).elim⟩
  case inr.inr.inl =>
    obtain ⟨hklen, hgt, hbelow⟩ := firstOutOfRange_some.mp hk
    have hk' : firstOutOfRange s' (ratioMux b).mask = some k :=
      firstOutOfRange_some.mpr ⟨hlen ▸ hklen, hchecked k hklen ▸ hgt,
        fun j hj => hchecked j (hj.trans hklen) ▸ hbelow j hj⟩
    exact ⟨_, packCommand_outOfRange hb (hlen ▸ hn) hk', hchecked k hklen ▸ sameReport_raised _ _ _,
      fun _ hk => (Nat.not_lt_zero _ hk).elim⟩
  case inr.inr.inr =>
    have hbytes : packedBytes b (ratioMux b).ratio.toNat s' = packedBytes b (ratioMux b).ratio.toNat s :=
      packedBytes_congr b hlen fun k hk => congrArg (BitVec.ofNat 8) (hread _ k hk)
    have hc' := packCommand_success hb (hlen ▸ hn) fun k hk => hchecked k (hlen ▸ hk) ▸ hrange k (hlen ▸ hk)
    rw [hlen, hbytes] at hc'
    exact ⟨_, hc', sameReport_succeeded _ _ _,
      fun k hk => Memory.read_writeSeq_zero_congr _ _ _ (by simpa using hk)⟩

/-- The admission compares `LEN` and the parameters alone; an admitted UNPACK writes the same elements. -/
theorem unpackCommand_agrees (hcfg : s'.cfg = s.cfg) (hlen : s'.len = s.len) (hw : s.BytesWritten s.len)
    (hr : ∀ i < s.len, Memory.read s'.pbuf i = Memory.read s.pbuf i) (ht : unpackCommand b s = .next t) :
    ∃ t', unpackCommand b s' = .next t' ∧ SameReport t t' ∧
      ∀ k < t.olen, Memory.read t'.ebuf k = Memory.read t.ebuf k := by
  rcases unpackCommand_cases b s with ⟨hb, hc⟩ | ⟨-, -, hc⟩ | ⟨hb, hfit, hc⟩ <;> rw [hc] at ht <;> cases ht
  case inl => exact ⟨_, unpackCommand_invalid hb, sameReport_raised _ _ _, fun _ hk => (Nat.not_lt_zero _ hk).elim⟩
  case inr.inr =>
    have helements := unpackedElements_congr b (ratioMux b).mask (ratio := (ratioMux b).ratio.toNat) hlen
      fun i hi => byteRead_congr (hw i hi) (hr i hi) _
    have hc' := unpackCommand_success (s := s') hb (by rw [hlen, hcfg]; exact hfit)
    rw [hlen, helements] at hc'
    exact ⟨_, hc', sameReport_succeeded _ _ _,
      fun k hk => Memory.read_writeSeq_zero_congr _ _ _ (by simpa using hk)⟩

end Agreement

/-- Settles O38: a command is PACK or UNPACK by its `OP`, and each reads its source cells, `LEN` and the parameters only. -/
theorem outcomeDependsOnInputsOnly : Obligations.OutcomeDependsOnInputsOnly := by
  intro i s s' t hcfg hlen hpack hunpack ht
  rw [exec_eq] at ht ⊢
  by_cases hop : i.op = 0
  · rw [if_pos hop] at ht ⊢
    obtain ⟨hw, hr⟩ := hpack hop
    obtain ⟨t', ht', ⟨hst, hol, hei, hev, her⟩, hcells⟩ := packCommand_agrees hlen hw hr ht
    exact ⟨t', ht', hst, hol, hei, hev, her, fun _ => hcells, fun hop' => absurd (hop.symm.trans hop') (by decide)⟩
  · rw [if_neg hop] at ht ⊢
    have hop' : i.op = 1 := (BitVec.eq_zero_or_eq_one i.op).resolve_left hop
    obtain ⟨hw, hr⟩ := hunpack hop'
    obtain ⟨t', ht', ⟨hst, hol, hei, hev, her⟩, hcells⟩ := unpackCommand_agrees hcfg hlen hw hr ht
    exact ⟨t', ht', hst, hol, hei, hev, her, fun h0 => absurd h0 hop, fun _ => hcells⟩

end Sys2Proof.Machine
end

