-- ==== Sys2Proof/Proofs/State.lean ====
section
/-! PROOFS. The family 10_state: what reset leaves, what a command and a step leave unchanged, and the report
invariant. -/

namespace Sys2Proof.Machine

/-! Reset (R26, R170). -/

/-- Settles O10: power-on is `State.resetOf`, and a reset event is `State.resetCore` with the event taken off. -/
theorem resetLeavesRegistersZero : Obligations.ResetLeavesRegistersZero := by
  refine ⟨fun c => ⟨rfl, rfl, rfl, rfl, rfl, rfl, rfl, rfl, fun k => ⟨rfl, rfl⟩⟩, fun s rest hp => ?_⟩
  have hstep : step s = .next (s.withPending rest).resetCore := step_pending hp
  exact ⟨_, hstep, rfl, rfl, rfl, rfl, rfl, rfl, rfl, rfl, rfl, fun k => ⟨rfl, rfl⟩⟩

theorem State.inv_resetOf {c : Config} (hc : c.Ok) : (State.resetOf c).Inv where
  cfgOk := hc
  lenFits := Nat.two_pow_pos _
  olenFits := Nat.two_pow_pos _
  errIndexFits := Nat.two_pow_pos _
  errValueFits := Nat.two_pow_pos _
  ebufWf := Memory.wf_nil
  ebufFits := List.forall_mem_nil _
  pbufWf := Memory.wf_nil
  pbufFits := List.forall_mem_nil _

/-- `STATUS` is 0 after reset, so only the clause on the state before the first command speaks (R16, R26). -/
theorem State.reportOk_resetOf (c : Config) : (State.resetOf c).ReportOk := by
  constructor
  case beforeFirst => exact fun _ => ⟨rfl, rfl, rfl, rfl, rfl⟩
  all_goals simp [State.resetOf]

/-- Settles O11: `State.reset` is the state after reset at parameters that R8 and R9 allow. -/
theorem resetMeetsInvariants : Obligations.ResetMeetsInvariants :=
  ⟨fun c hc => ⟨State.inv_resetOf hc, State.reportOk_resetOf c⟩,
    State.inv_resetOf (by decide), State.reportOk_resetOf _⟩

/-! What a command leaves unchanged (R23, R25). -/

/-- What no command writes: `CMD`, `LEN`, the parameters and the two fields of the host port (R25). -/
structure CommandFrame (s t : State) : Prop where
  cmd : t.cmd = s.cmd
  len : t.len = s.len
  cfg : t.cfg = s.cfg
  pending : t.pending = s.pending
  replies : t.replies = s.replies

section Command

variable {s t : State} {b : Byte}

/-- PACK leaves its source, and of its destination every cell from `LEN / RATIO` up (R23, R99). -/
theorem packCommand_frame (ht : packCommand b s = .next t) :
    CommandFrame s t ∧ t.ebuf = s.ebuf ∧
      ∀ k, s.len / (ratioMux b).ratio.toNat ≤ k → Memory.read t.pbuf k = Memory.read s.pbuf k := by
  rcases packCommand_cases b s with ⟨-, hc⟩ | ⟨-, -, hc⟩ | ⟨-, -, k, -, hc⟩ | ⟨-, -, -, hc⟩ <;>
    obtain rfl := Host.Outcome.next.inj (hc.symm.trans ht) <;>
    refine ⟨⟨rfl, rfl, rfl, rfl, rfl⟩, rfl, fun k hk => ?_⟩
  case inl => rfl
  case inr.inl => rfl
  case inr.inr.inl => simpa using Memory.read_redraw_above _ _ hk
  case inr.inr.inr => exact Memory.read_writeSeq_above _ _ (by simpa using hk)

/-- UNPACK leaves its source, and of its destination every cell from the new `OLEN` up (R23, R114). -/
theorem unpackCommand_frame (ht : unpackCommand b s = .next t) :
    CommandFrame s t ∧ t.pbuf = s.pbuf ∧ ∀ k, t.olen ≤ k → Memory.read t.ebuf k = Memory.read s.ebuf k := by
  rcases unpackCommand_cases b s with ⟨-, hc⟩ | ⟨-, -, hc⟩ | ⟨-, -, hc⟩ <;> rw [hc] at ht <;> cases ht <;>
    refine ⟨⟨rfl, rfl, rfl, rfl, rfl⟩, rfl, fun k hk => ?_⟩
  case inl => rfl
  case inr.inr => exact Memory.read_writeSeq_above _ _ (by simpa using hk)

end Command

/-- Settles O26: a command is PACK or UNPACK by its `OP`, and each has its frame. -/
theorem commandNeverWritesSource : Obligations.CommandNeverWritesSource := by
  intro i s t ht
  rw [exec_eq] at ht
  split at ht
  next hop =>
    obtain ⟨hf, hebuf, -⟩ := packCommand_frame ht
    exact ⟨fun _ => hebuf, fun hop' => absurd (hop.symm.trans hop') (by decide),
      hf.cmd, hf.len, hf.cfg, hf.pending, hf.replies⟩
  next hop =>
    obtain ⟨hf, hpbuf, -⟩ := unpackCommand_frame ht
    exact ⟨fun hop' => absurd hop' hop, fun _ => hpbuf, hf.cmd, hf.len, hf.cfg, hf.pending, hf.replies⟩

/-! What a step leaves unchanged (R25, R49). -/

/-- The core is as before: only the model's own fields can differ (the rows of R25 without a write). -/
def SameCore (s t : State) : Prop :=
  ∃ es vs d, t = { s with pending := es, replies := vs, draws := d }

theorem sameCore_drawIfUnwritten {α : Type} (c : Option α) (s : State) (es : List Event) (v : Nat) :
    SameCore s (drawIfUnwritten c ((s.withPending es).withReply v)) := by
  cases c with
  | none => exact ⟨_, _, _, rfl⟩
  | some _ => exact ⟨_, _, _, rfl⟩

/-- The five ways a step without a reset can go on, by what it writes (R25): nothing of the core, what a command writes,
`LEN`, one cell of `EBUF`, or one cell of `PBUF`. -/
theorem step_writes_cases {s t : State} (h : step s = .next t) (hr : s.pending.head? ≠ some .reset) :
    SameCore s t ∨
    (∃ (w : CmdWord) (rest : List Event), s.pending = .op (.wrreg 0 w.toNat) :: rest ∧
      exec (decode w) ((s.withPending rest).withCmd w) = .next t) ∨
    (∃ n rest, s.pending = .op (.wrreg 1 n) :: rest ∧ t = (s.withPending rest).withLen n) ∨
    (∃ i v rest, s.pending = .op (.wre i v) :: rest ∧ t = (s.withPending rest).withEbuf (Memory.write s.ebuf i v)) ∨
    (∃ i v rest, s.pending = .op (.wrp i v) :: rest ∧
      t = (s.withPending rest).withPbuf (Memory.write s.pbuf i (BitVec.ofNat 8 v))) := by
  rcases step_next_cases h with ⟨-, rfl⟩ | ⟨e, rest, hp, hrow⟩
  · exact .inl ⟨_, _, _, rfl⟩
  rcases hrow with ⟨rfl, -⟩ | ⟨k, r, -, -, rfl⟩ | ⟨w, rfl, hw, hexec⟩ | ⟨n, rfl, -, rfl⟩ | ⟨k, v, -, -, -, rfl⟩ |
    ⟨i, -, -, rfl⟩ | ⟨i, v, rfl, -, -, rfl⟩ | ⟨i, -, -, rfl⟩ | ⟨i, v, rfl, -, -, rfl⟩
  · exact absurd (by rw [hp]; rfl) hr
  · exact .inl ⟨_, _, _, rfl⟩
  · have hword : (BitVec.ofNat 9 w).toNat = w := BitVec.toNat_ofNat w 9 ▸ Nat.mod_eq_of_lt hw
    exact .inr (.inl ⟨_, rest, hword.symm ▸ hp, hexec⟩)
  · exact .inr (.inr (.inl ⟨n, rest, hp, rfl⟩))
  · exact .inl ⟨_, _, _, rfl⟩
  · exact .inl (sameCore_drawIfUnwritten _ _ _ _)
  · exact .inr (.inr (.inr (.inl ⟨i, v, rest, hp, rfl⟩)))
  · exact .inl (sameCore_drawIfUnwritten _ _ _ _)
  · exact .inr (.inr (.inr (.inr ⟨i, v, rest, hp, rfl⟩)))

/-- A cell that a write changes is the cell written. -/
theorem Memory.eq_of_read_write_ne {α : Type} {m : Memory α} {i k : Nat} {v : α}
    (h : Memory.read (Memory.write m i v) k ≠ Memory.read m k) : k = i :=
  Decidable.of_not_not fun hk => h (Memory.read_write_other m v hk)

/-- Settles O25: each way of `step_writes_cases` changes what its row of R25 names. -/
theorem stepWritesOnlyItsRow : Obligations.StepWritesOnlyItsRow := by
  intro s t h hr
  rcases step_writes_cases h hr with ⟨es, vs, d, rfl⟩ | ⟨w, rest, hp, hexec⟩ | ⟨n, rest, hp, rfl⟩ |
    ⟨i, v, rest, hp, rfl⟩ | ⟨i, v, rest, hp, rfl⟩
  · simp
  · have hhead : s.pending.head? = some (.op (.wrreg 0 w.toNat)) := by rw [hp]; rfl
    rw [exec_decode] at hexec
    split at hexec
    next hop =>
      obtain ⟨hf, hebuf, hpbuf⟩ := packCommand_frame hexec
      exact ⟨hf.cfg, fun _ => ⟨_, hhead⟩, fun hne => absurd hf.len hne,
        fun k hne => absurd (congrArg (Memory.read · k) hebuf) hne,
        fun k hne => .inr ⟨w, hhead, hop, Nat.lt_of_not_le fun hk => hne (hpbuf k hk)⟩⟩
    next hop =>
      obtain ⟨hf, hpbuf, hebuf⟩ := unpackCommand_frame hexec
      exact ⟨hf.cfg, fun _ => ⟨_, hhead⟩, fun hne => absurd hf.len hne,
        fun k hne => .inr ⟨w, hhead, (opField_cases w).resolve_left hop, Nat.lt_of_not_le fun hk => hne (hebuf k hk)⟩,
        fun k hne => absurd (congrArg (Memory.read · k) hpbuf) hne⟩
  · simp [hp]
  · refine ⟨rfl, by simp, by simp, fun k hne => .inl ⟨v, ?_⟩, by simp⟩
    rw [hp, Memory.eq_of_read_write_ne hne]; rfl
  · refine ⟨rfl, by simp, by simp, by simp, fun k hne => .inl ⟨v, ?_⟩⟩
    rw [hp, Memory.eq_of_read_write_ne hne]; rfl

/-! The report invariant: one rule per outcome of a command, then the two commands, then the step. -/

section Report

variable {s t : State} {b : Byte}

/-! Each outcome writes one word to `STATUS` (R16), so of the clauses of `State.ReportOk` only its own speaks. -/

theorem State.reportOk_succeeded (hb : isSupported (bitsField s.cmd) = true) (m : Nat) : (succeeded m s).ReportOk := by
  constructor
  case afterSuccess => exact fun _ => ⟨hb, rfl, rfl, rfl⟩
  all_goals simp [statusDone]

theorem State.reportOk_raised_invalidBitWidth (hb : isSupported (bitsField s.cmd) = false) :
    (raised (.invalidBitWidth (bitsField s.cmd)) s).ReportOk := by
  constructor
  case afterInvalidBitWidth => exact fun _ => ⟨hb, rfl, rfl, rfl, rfl⟩
  all_goals simp [CmdError.code, statusDone]

theorem State.reportOk_raised_misalignedLength (hop : opField s.cmd = 0)
    (hratio : (ratioMux (bitsField s.cmd)).ratio ∈ [2, 4, 8]) :
    (raised (.misalignedLength (ratioMux (bitsField s.cmd)).ratio) s).ReportOk := by
  constructor
  case afterMisalignedLength => exact fun _ => ⟨hop, rfl, hratio, rfl, rfl, rfl⟩
  all_goals simp [CmdError.code, statusDone]

theorem State.reportOk_raised_valueOutOfRange (hop : opField s.cmd = 0) (hb : isSupported (bitsField s.cmd) = true)
    {v : Nat} (hv : (ratioMux (bitsField s.cmd)).mask.toNat < v) (k : Nat) :
    (raised (.valueOutOfRange k v) s).ReportOk := by
  constructor
  case afterValueOutOfRange => exact fun _ => ⟨hop, hb, hv, rfl, rfl⟩
  all_goals simp [CmdError.code, statusDone]

/-- Every length is a multiple of 1, so a misaligned one has `RATIO` 2, 4 or 8 (R145). -/
theorem ratio_of_misaligned (hb : isSupported b = true) {n : Nat} (hn : n % (ratioMux b).ratio.toNat ≠ 0) :
    (ratioMux b).ratio ∈ [2, 4, 8] := by
  rcases supported_cases hb with rfl | rfl | rfl | rfl
  · decide
  · decide
  · decide
  · exact absurd (Nat.mod_one n) hn

/-- The outcome PACK reports is the one its preconditions give, with the width still in `CMD` (R90, R140). -/
theorem packCommand_reportOk (hop : opField s.cmd = 0) (ht : packCommand (bitsField s.cmd) s = .next t) :
    t.ReportOk := by
  rcases packCommand_cases (bitsField s.cmd) s with ⟨hb, hc⟩ | ⟨hb, hn, hc⟩ | ⟨hb, -, k, hk, hc⟩ | ⟨hb, -, -, hc⟩ <;>
    obtain rfl := Host.Outcome.next.inj (hc.symm.trans ht)
  case inl => exact State.reportOk_raised_invalidBitWidth hb
  case inr.inl => exact State.reportOk_raised_misalignedLength hop (ratio_of_misaligned hb hn)
  case inr.inr.inl =>
    obtain ⟨-, hgt, -⟩ := firstOutOfRange_some.mp hk
    exact State.reportOk_raised_valueOutOfRange (s := s.redrawPbuf (s.len / _)) hop hb hgt k
  case inr.inr.inr => exact State.reportOk_succeeded (by simpa using hb) _

theorem unpackCommand_reportOk (ht : unpackCommand (bitsField s.cmd) s = .next t) : t.ReportOk := by
  rcases unpackCommand_cases (bitsField s.cmd) s with ⟨hb, hc⟩ | ⟨-, -, hc⟩ | ⟨hb, -, hc⟩ <;>
    rw [hc] at ht <;> cases ht
  case inl => exact State.reportOk_raised_invalidBitWidth hb
  case inr.inr => exact State.reportOk_succeeded (by simpa using hb) _

/-- A command that runs with its own word in `CMD` leaves a consistent report, whatever the report was before. -/
theorem exec_reportOk {w : CmdWord} (hw : s.cmd = w) (ht : exec (decode w) s = .next t) : t.ReportOk := by
  subst hw
  rw [exec_decode] at ht
  split at ht
  next hop => exact packCommand_reportOk hop ht
  next => exact unpackCommand_reportOk ht

theorem State.ReportOk.of_sameCore (h : s.ReportOk) (hst : SameCore s t) : t.ReportOk := by
  obtain ⟨es, vs, d, rfl⟩ := hst
  exact State.reportOk_congr h rfl rfl rfl rfl rfl rfl

theorem State.reportOk_resetCore (s : State) : s.resetCore.ReportOk :=
  State.reportOk_congr (State.reportOk_resetOf s.cfg) rfl rfl rfl rfl rfl rfl

end Report

/-- Settles O13: a reset and a command write a consistent report, and no other event touches it. -/
theorem stepKeepsReportsConsistent : Obligations.StepKeepsReportsConsistent := by
  intro s t hs ht
  by_cases hr : s.pending.head? = some .reset
  · obtain ⟨rest, hp⟩ := List.head?_eq_some_iff.mp hr
    obtain rfl := Host.Outcome.next.inj ((step_pending hp).symm.trans ht)
    exact State.reportOk_resetCore _
  rcases step_writes_cases ht hr with hsame | ⟨w, rest, -, hexec⟩ | ⟨n, rest, -, rfl⟩ | ⟨i, v, rest, -, rfl⟩ |
    ⟨i, v, rest, -, rfl⟩
  · exact hs.of_sameCore hsame
  · exact exec_reportOk (State.withCmd_cmd _ w) hexec
  all_goals exact State.reportOk_congr hs rfl rfl rfl rfl rfl rfl

end Sys2Proof.Machine
end

/-! PROOFS. The family 20_memory: what a host read of a written cell answers. -/

namespace Sys2Proof.Machine

section HostRead

variable {s : State} {i : Nat}

/-- A read of a written cell of `EBUF` draws no free value, so the reply is its whole effect (R130). -/
theorem hostRde_written (hi : i < 2 ^ s.cfg.wLen) {v : Nat} (hv : Memory.read s.ebuf i = some v) :
    hostRde i s = .next (s.withReply v) := by
  rw [hostRde, if_pos hi, elementRead_written _ hv, hv, drawIfUnwritten]

/-- A read of a written cell of `PBUF` draws no free value, so the reply is its whole effect (R132). -/
theorem hostRdp_written (hi : i < 2 ^ s.cfg.wLen) {p : Byte} (hp : Memory.read s.pbuf i = some p) :
    hostRdp i s = .next (s.withReply p.toNat) := by
  rw [hostRdp, if_pos hi, byteRead_written _ hp, hp, drawIfUnwritten]

end HostRead

/-- Settles O21: the step is the host's read, in the state with the event taken off, which holds the same cells. -/
theorem writtenCellReadReturnsValue : Obligations.WrittenCellReadReturnsValue := by
  intro s rest i hi
  constructor
  · intro v hpending hv
    rw [step_pending hpending]
    exact hostRde_written (s := s.withPending rest) hi hv
  · intro p hpending hp
    rw [step_pending hpending]
    exact hostRdp_written (s := s.withPending rest) hi hp

end Sys2Proof.Machine

/-! PROOFS. The family 30_encoding: the round trip of decoder and encoder, the opcode table, and what an illegal word
does. -/

namespace Sys2Proof

/-! The round trip (R60, R64, R68). -/

/-- No bit of a word is dropped: the decoder keeps both fields and the encoder puts them back (R68). -/
theorem encode_decode (w : CmdWord) : encode (decode w) = w := by
  obtain ⟨-, hop, hbits⟩ := decode_fields w
  obtain ⟨hop', hbits'⟩ := encode_fields (decode w)
  exact word_eq_of_fields (hop'.trans hop) (hbits'.trans hbits)

/-- A word of unsupported width decodes by its `OP` alone (R66). -/
theorem decode_unsupported {w : CmdWord} (h : isSupported (bitsField w) = false) :
    decode w = if opField w = 0 then .packUnsupported (bitsField w) else .unpackUnsupported (bitsField w) := by
  rw [decode, decodePack_unsupported h, decodeUnpack_unsupported h]

/-- The two rows of illegal words keep their operand, and an unsupported operand leads back to its row; the legal rows
are eight closed facts. -/
theorem decode_encode {i : Instr} (h : i.wellFormed = true) : decode (encode i) = i := by
  obtain ⟨hop, hbits⟩ := encode_fields i
  cases i
  case packUnsupported b | unpackUnsupported b =>
    have hb : isSupported b = false := by simpa [Instr.wellFormed] using h
    rw [decode_unsupported (hbits ▸ hb), hop, hbits]
    rfl
  all_goals decide

/-- Settles O2: encoding undoes decoding, and decoding undoes encoding on the well-formed commands. -/
theorem decodeIsInverseOfEncode : Obligations.DecodeIsInverseOfEncode := by
  intro i w
  constructor
  · rintro rfl
    obtain ⟨hwf, -, -⟩ := decode_fields w
    exact ⟨hwf, encode_decode w⟩
  · rintro ⟨hwf, rfl⟩
    exact decode_encode hwf

/-! The opcode table and sample words (R60, R64, R66). -/

/-- Settles O1: the eight rows are closed facts, and the other words decode by their `OP`. -/
theorem opcodeTableDecodes : Obligations.OpcodeTableDecodes :=
  ⟨by decide, fun _ => decode_unsupported⟩

/-- Settles O3: each sample word is the encoding of a well-formed command, and 0x200 does not fit 9 bits. -/
theorem sampleWordsDecode : Obligations.SampleWordsDecode :=
  ⟨decode_encode (i := .pack2) rfl, decode_encode (i := .unpack8) rfl, decode_encode (i := .packUnsupported 0) rfl,
    decode_encode (i := .packUnsupported 3) rfl, decode_encode (i := .unpackUnsupported 255) rfl,
    congrArg some (decode_encode (i := .unpack4) rfl), rfl⟩

end Sys2Proof

namespace Sys2Proof.Machine

/-! The illegal words (R66): how many there are, and what a write of one to `CMD` does. -/

/-- The legal words as numbers (R64). -/
def legalWords : List Nat := [0x001, 0x002, 0x004, 0x008, 0x101, 0x102, 0x104, 0x108]

/-- The operand of the word with number `n` is the number's low byte (R60). -/
theorem isSupported_bitsField_ofNat (n : Nat) :
    isSupported (bitsField (BitVec.ofNat 9 n)) = true ↔ n % 256 ∈ [1, 2, 4, 8] := by
  have hbits : bitsField (BitVec.ofNat 9 n) = BitVec.ofNat 8 n := by
    apply BitVec.eq_of_toNat_eq
    simp [bitsField]
  rw [hbits]
  simp [isSupported, supportedWidths, ← BitVec.toNat_inj]

/-- Of the 512 words those of supported width are the eight of R64's table. -/
theorem supported_numbers_perm :
    ((List.range 512).filter fun n => isSupported (bitsField (BitVec.ofNat 9 n))).Perm legalWords := by
  refine (List.perm_ext_iff_of_nodup (List.nodup_range.filter _) (by decide)).mpr fun n => ?_
  rw [List.mem_filter, isSupported_bitsField_ofNat]
  simp only [legalWords, List.mem_range, List.mem_cons, List.not_mem_nil, or_false]
  omega

/-- The illegal words are the 512 less the eight legal ones (R66). -/
theorem unsupported_numbers_length :
    ((List.range 512).filter fun n => !isSupported (bitsField (BitVec.ofNat 9 n))).length = 504 := by
  have htotal := List.length_eq_length_filter_add (l := List.range 512)
    fun n => isSupported (bitsField (BitVec.ofNat 9 n))
  rw [supported_numbers_perm.length_eq, List.length_range] at htotal
  simp only [legalWords, List.length_cons, List.length_nil] at htotal
  omega

/-- A pending write of a word to `CMD` issues that word (R129). -/
theorem step_wrreg_cmd {s : State} {w : CmdWord} {rest : List Event}
    (h : s.pending = .op (.wrreg 0 w.toNat) :: rest) : step s = issueCommand w (s.withPending rest) := by
  have hwrite : hostWrreg 0 w.toNat (s.withPending rest) = issueCommand w (s.withPending rest) := by
    rw [hostWrreg_cmd w.isLt, BitVec.ofNat_toNat, BitVec.setWidth_eq]
  exact (step_pending h).trans hwrite

/-- The width is checked first by both operations, so an illegal word raises the one error (R66, R91, R111). -/
theorem exec_decode_unsupported {w : CmdWord} (h : isSupported (bitsField w) = false) (s : State) :
    exec (decode w) s = .next (raised (.invalidBitWidth (bitsField w)) s) := by
  rw [exec_decode, packCommand_invalid h, unpackCommand_invalid h, ite_self]

/-- Settles O4: the step stores the word and runs its command, whose whole effect is the raised error. -/
theorem illegalWordRaisesInvalidBitWidth : Obligations.IllegalWordRaisesInvalidBitWidth := by
  refine ⟨unsupported_numbers_length, fun s w rest h hpending => ?_⟩
  rw [step_wrreg_cmd hpending, issueCommand, exec_decode_unsupported h, raised_invalidBitWidth]

end Sys2Proof.Machine

/-! PROOFS. The family 40_ratio_mux: the mux's table, its identities, and the shift of a sub-position. -/

namespace Sys2Proof.Machine

/-- Settles O7: the table is the mux's own case split. -/
theorem ratioMuxTable : Obligations.RatioMuxTable := fun _ => rfl

section Supported

variable {b : Byte} (h : isSupported b = true)

include h

/-! The shifts (R81). -/

theorem shiftAmount_last : shiftAmount b ((ratioMux b).ratio.toNat - 1) = 8 - b.toNat := by
  obtain ⟨hrb, -⟩ := ratioMux_supported h
  rw [shiftAmount, Nat.mul_sub_one, Nat.mul_comm, hrb]

/-- No sub-position is shifted further than the last one. -/
theorem shiftAmount_le_last {j : Nat} (hj : j < (ratioMux b).ratio.toNat) : shiftAmount b j ≤ 8 - b.toNat :=
  shiftAmount_last h ▸ Nat.mul_le_mul_left _ (Nat.le_sub_one_of_lt hj)

/-! The shifted masks (R83): bit `i` of a byte belongs to the one field `i / b`. -/

theorem getLsbD_shiftedMask (j : Nat) {i : Nat} (hi : i < 8) :
    ((ratioMux b).mask <<< shiftAmount b j).getLsbD i = decide (i / b.toNat = j) := by
  obtain ⟨-, -, hb, -, hbit⟩ := ratioMux_supported h
  have hfield : i / b.toNat = j ↔ b.toNat * j ≤ i ∧ i - b.toNat * j < b.toNat := by
    rw [Nat.div_eq_iff hb, Nat.mul_comm j]; omega
  rw [shiftAmount, BitVec.getLsbD_shiftLeft, hbit _ (Nat.lt_of_le_of_lt (Nat.sub_le _ _) hi), Bool.eq_iff_iff]
  simp [hi, hfield]

/-- A bit in two fields would have two field numbers. -/
theorem shiftedMasks_disjoint {j k : Nat} (hjk : j ≠ k) :
    ((ratioMux b).mask <<< shiftAmount b j) &&& ((ratioMux b).mask <<< shiftAmount b k) = 0 := by
  apply BitVec.eq_of_getLsbD_eq
  intro i hi
  rw [BitVec.getLsbD_and, getLsbD_shiftedMask h j hi, getLsbD_shiftedMask h k hi]
  have hnot : ¬ (i / b.toNat = j ∧ i / b.toNat = k) := fun ⟨hj, hk⟩ => hjk (hj.symm.trans hk)
  simpa using hnot

/-- Every bit is in a field, since the byte holds `RATIO` of them. -/
theorem packByte_mask : packByte b (ratioMux b).ratio.toNat (fun _ => (ratioMux b).mask) = BitVec.allOnes 8 := by
  obtain ⟨hrb, -, hb, -, hbit⟩ := ratioMux_supported h
  apply BitVec.eq_of_getLsbD_eq
  intro i hi
  have hfield : i / b.toNat < (ratioMux b).ratio.toNat := by rw [Nat.div_lt_iff_lt_mul hb, hrb]; exact hi
  have hplace : i - b.toNat * (i / b.toNat) < b.toNat := Nat.mod_def i _ ▸ Nat.mod_lt i hb
  have hbitSet : (ratioMux b).mask.getLsbD (i - b.toNat * (i / b.toNat)) = true := by
    rw [hbit _ (Nat.lt_of_le_of_lt (Nat.sub_le _ _) hi), decide_eq_true hplace]
  rw [BitVec.getLsbD_allOnes, decide_eq_true hi, packByte_bit _ _ _ hi]
  exact ⟨_, hfield, Nat.mul_div_le i _, hbitSet⟩

end Supported

/-- Settles O8: the laws of a supported width, and the fold over the shifted masks is a byte assembled from masks. -/
theorem muxIdentities : Obligations.MuxIdentities := by
  intro b hvalid
  have h : isSupported b = true := ratioMux_valid b ▸ hvalid
  obtain ⟨hrb, -, -, hmask, hbit⟩ := ratioMux_supported h
  have hsucc : (ratioMux b).mask.toNat + 1 = 2 ^ b.toNat := by
    rw [hmask, Nat.sub_add_cancel Nat.one_le_two_pow]
  exact ⟨hrb, hsucc, hbit, fun _ _ _ _ hjk => shiftedMasks_disjoint h hjk, packByte_mask h⟩

/-- Settles O9: every shift is at most the last one, `8 - b`, and `b` is not 0. -/
theorem shiftStaysInByte : Obligations.ShiftStaysInByte := by
  intro b h
  obtain ⟨-, -, hb, -, -⟩ := ratioMux_supported h
  refine ⟨fun j hj => ⟨rfl, ?_⟩, shiftAmount_last h⟩
  have hle := shiftAmount_le_last h hj
  omega

end Sys2Proof.Machine

/-! PROOFS. The family 41_pack: a packed byte as a sum, the two errors of a PACK of supported width, and its success. -/

namespace Sys2Proof.Machine

/-! An illegal width (R91, R111). -/

/-- Settles O5: both commands check the width first, and the error they raise is their whole effect. -/
theorem unsupportedWidthCompletes : Obligations.UnsupportedWidthCompletes := by
  intro s b h
  rw [← raised_invalidBitWidth]
  exact ⟨packCommand_invalid h, unpackCommand_invalid h⟩

/-! A packed byte as a number (R96): the assembly from the first `n` elements stays below `2^(b*n)`, so the next
shifted element meets no bit of it and the OR is an addition. -/

section PackedSum

variable {b : Byte} {e : Nat → Byte}

theorem packByte_succ (b : Byte) (n : Nat) (e : Nat → Byte) :
    packByte b (n + 1) e = packByte b n e ||| (e n <<< shiftAmount b n) := by
  simp [packByte, List.range_succ]

/-- An element shifted to its sub-position ends below the next sub-position. -/
theorem shifted_lt {v : Byte} (hv : v.toNat < 2 ^ b.toNat) (j : Nat) :
    v.toNat * 2 ^ (b.toNat * j) < 2 ^ (b.toNat * (j + 1)) := by
  rw [Nat.mul_succ, Nat.pow_add, Nat.mul_comm (2 ^ _)]
  exact Nat.mul_lt_mul_of_pos_right hv (Nat.two_pow_pos _)

/-- A sub-position that lies in the byte loses no bit of its element. -/
theorem shiftLeft_shiftAmount_toNat {v : Byte} {j : Nat} (hfit : b.toNat * (j + 1) ≤ 8) (hv : v.toNat < 2 ^ b.toNat) :
    (v <<< shiftAmount b j).toNat = v.toNat * 2 ^ (b.toNat * j) := by
  rw [BitVec.toNat_shiftLeft, Nat.shiftLeft_eq, shiftAmount]
  exact Nat.mod_eq_of_lt ((shifted_lt hv j).trans_le (Nat.pow_le_pow_right Nat.two_pos hfit))

theorem packByte_lt {n : Nat} (hfit : b.toNat * n ≤ 8) (he : ∀ j < n, (e j).toNat < 2 ^ b.toNat) :
    (packByte b n e).toNat < 2 ^ (b.toNat * n) := by
  induction n with
  | zero => simp [packByte]
  | succ n ih =>
    have hle : b.toNat * n ≤ b.toNat * (n + 1) := Nat.mul_le_mul_left _ n.le_succ
    have hlow := (ih (hle.trans hfit) fun j hj => he j (hj.trans n.lt_succ_self)).trans_le
      (Nat.pow_le_pow_right Nat.two_pos hle)
    rw [packByte_succ, BitVec.toNat_or, shiftLeft_shiftAmount_toNat hfit (he n n.lt_succ_self)]
    exact Nat.or_lt_two_pow hlow (shifted_lt (he n n.lt_succ_self) n)

theorem packByte_toNat {n : Nat} (hfit : b.toNat * n ≤ 8) (he : ∀ j < n, (e j).toNat < 2 ^ b.toNat) :
    (packByte b n e).toNat = ((List.range n).map fun j => (e j).toNat * 2 ^ (b.toNat * j)).sum := by
  induction n with
  | zero => simp [packByte]
  | succ n ih =>
    have hfit' : b.toNat * n ≤ 8 := (Nat.mul_le_mul_left _ n.le_succ).trans hfit
    have he' : ∀ j < n, (e j).toNat < 2 ^ b.toNat := fun j hj => he j (hj.trans n.lt_succ_self)
    calc (packByte b (n + 1) e).toNat
      _ = (packByte b n e).toNat ||| 2 ^ (b.toNat * n) * (e n).toNat := by
        rw [packByte_succ, BitVec.toNat_or, shiftLeft_shiftAmount_toNat hfit (he n n.lt_succ_self), Nat.mul_comm]
      _ = 2 ^ (b.toNat * n) * (e n).toNat + (packByte b n e).toNat := by
        rw [Nat.two_pow_add_eq_or_of_lt (packByte_lt hfit' he'), Nat.or_comm]
      _ = _ := by
        rw [ih hfit' he', List.range_succ, List.map_append, List.sum_append, Nat.add_comm, Nat.mul_comm]
        simp

/-- A value of at most `MASK` has `b` bits. -/
theorem lt_two_pow_of_le_mask (h : isSupported b = true) {n : Nat} (hn : n ≤ (ratioMux b).mask.toNat) :
    n < 2 ^ b.toNat := by
  obtain ⟨-, -, -, hmask, -⟩ := ratioMux_supported h
  exact (hmask ▸ hn).trans_lt (Nat.sub_lt (Nat.two_pow_pos _) Nat.one_pos)

/-- The `RATIO` sub-positions of a supported width fill the byte (R83). -/
theorem bits_mul_ratio (h : isSupported b = true) : b.toNat * (ratioMux b).ratio.toNat = 8 :=
  (Nat.mul_comm _ _).trans (ratioMux_supported h).1

theorem bits_le_eight (h : isSupported b = true) : b.toNat ≤ 8 :=
  Nat.le_of_dvd (by decide) ⟨_, (bits_mul_ratio h).symm⟩

end PackedSum

/-- Settles O37: the `RATIO` sub-positions lie in the byte, and an element of at most `MASK` has `b` bits. -/
theorem packedByteIsSum : Obligations.PackedByteIsSum := by
  intro b e h he
  have hlt : ∀ j < (ratioMux b).ratio.toNat, (e j).toNat < 2 ^ b.toNat := fun j hj => lt_two_pow_of_le_mask h (he j hj)
  refine ⟨fun j hj => shiftLeft_shiftAmount_toNat ?_ (hlt j hj), packByte_toNat (bits_mul_ratio h).le hlt⟩
  exact (Nat.mul_le_mul_left _ hj).trans (bits_mul_ratio h).le

/-! Which outcome a PACK had, read off `STATUS` (R16, R140): the four outcomes write four different words. -/

section Status

variable {s t : State} {b : Byte}

theorem misaligned_of_status (ht : packCommand b s = .next t) (hst : t.status = 0b101) :
    s.len % (ratioMux b).ratio.toNat ≠ 0 := by
  rcases packCommand_cases b s with ⟨-, hc⟩ | ⟨-, hn, -⟩ | ⟨-, -, k, -, hc⟩ | ⟨-, -, -, hc⟩
  case inr.inl => exact hn
  all_goals
    obtain rfl := Host.Outcome.next.inj (hc.symm.trans ht)
    simp [CmdError.code] at hst

theorem outOfRange_of_status (ht : packCommand b s = .next t) (hst : t.status = 0b111) :
    ∃ k, firstOutOfRange s (ratioMux b).mask = some k ∧
      t = raised (.valueOutOfRange k (checkedElement s k)) (s.redrawPbuf (s.len / (ratioMux b).ratio.toNat)) := by
  rcases packCommand_cases b s with ⟨-, hc⟩ | ⟨-, -, hc⟩ | ⟨-, -, k, hk, hc⟩ | ⟨-, -, -, hc⟩ <;>
    obtain rfl := Host.Outcome.next.inj (hc.symm.trans ht)
  case inr.inr.inl => exact ⟨k, hk, rfl⟩
  all_goals simp [CmdError.code] at hst

end Status

theorem exec_legalPack {i : Instr} (hi : i ∈ legalPacks) (s : State) : exec i s = packCommand i.bits s := by
  rw [exec_eq, if_pos (legalPacks_facts hi).1]

/-- Settles O34: a redraw changes written cells below `LEN / RATIO` only, and writes no cell anew. -/
theorem rangeErrorKeepsCellsAbove : Obligations.RangeErrorKeepsCellsAbove := by
  intro i hi s t ht hst
  rw [exec_legalPack hi] at ht
  obtain ⟨-, -, habove⟩ := packCommand_frame ht
  obtain ⟨k, -, rfl⟩ := outOfRange_of_status ht hst
  exact ⟨habove, fun n => by simp [Memory.read_redraw]⟩

/-! The three outcomes of a legal PACK (R93 to R97), for all four widths at once. -/

section LegalPack

variable {i : Instr} {s : State}

theorem exec_legalPack_misaligned (hi : i ∈ legalPacks) (hn : s.len % ratioOf i ≠ 0) :
    exec i s = .next ((s.withReport 0b101 0 0 0 (ratioMux i.bits).ratio).nextDraw) := by
  rw [exec_legalPack hi, packCommand_misaligned (legalPacks_facts hi).2 hn, raised_misalignedLength]

/-- One written element above `MASK` is enough for the range check to find an index. -/
theorem exec_legalPack_outOfRange (hi : i ∈ legalPacks) (hn : s.len % ratioOf i = 0)
    (hv : ∃ k < s.len, ∃ v, Memory.read s.ebuf k = some v ∧ maskOf i < v) :
    ∃ t, exec i s = .next t ∧ t.status = 0b111 ∧ t.olen = 0 := by
  obtain ⟨k, hk, v, hread, hgt⟩ := hv
  cases hfirst : firstOutOfRange s (ratioMux i.bits).mask with
  | none =>
    have hle := firstOutOfRange_none.mp hfirst k hk
    rw [checkedElement_written hread] at hle
    exact absurd hgt hle.not_gt
  | some k' =>
    exact ⟨_, (exec_legalPack hi s).trans (packCommand_outOfRange (legalPacks_facts hi).2 hn hfirst),
      statusWord_three, rfl⟩

/-- Byte `n` of the output is assembled from the elements `n * RATIO` to `n * RATIO + RATIO - 1`. -/
theorem Memory.read_packedBytes (m : Memory Byte) (b : Byte) (s : State) {ratio n : Nat} (hn : n < s.len / ratio) :
    Memory.read (Memory.writeSeq m 0 (packedBytes b ratio s)) n =
      some (packByte b ratio fun j => assembledElement s (n * ratio + j)) := by
  rw [Memory.read_writeSeq_zero _ _ (by simpa using hn), packedBytes_getElem]

/-- The elements of an output byte are among the first `LEN`. -/
theorem element_lt_len {len ratio n j : Nat} (hn : n < len / ratio) (hj : j < ratio) : n * ratio + j < len := by
  have hblock : (n + 1) * ratio ≤ len := (Nat.mul_le_mul_right _ hn).trans (Nat.div_mul_le_self _ _)
  rw [Nat.add_mul] at hblock
  omega

/-- A valid input succeeds with `OLEN = LEN / RATIO`; nothing but the report and `PBUF[0 .. LEN / RATIO - 1]` changes. -/
theorem exec_legalPack_inRange (hi : i ∈ legalPacks) (hn : s.len % ratioOf i = 0)
    (hr : s.ElementsInRange s.len (maskOf i)) :
    ∃ t, exec i s = .next t ∧ t = ((s.withPbuf t.pbuf).withReport 0b001 (s.len / ratioOf i) 0 0 0).nextDraw ∧
      (∀ n, s.len / ratioOf i ≤ n → Memory.read t.pbuf n = Memory.read s.pbuf n) ∧
      ∀ n < s.len / ratioOf i, Memory.read t.pbuf n =
        some (packByte i.bits (ratioOf i) fun j => assembledElement s (n * ratioOf i + j)) :=
  ⟨_, (exec_legalPack hi s).trans (packCommand_success (legalPacks_facts hi).2 hn hr.checked_le), succeeded_eq _ _,
    fun _ hk => Memory.read_writeSeq_above _ _ (by simpa [ratioOf] using hk),
    fun _ hk => Memory.read_packedBytes _ _ _ hk⟩

/-- The elements of an output byte of a valid input are the whole cells, each at most `MASK`. -/
theorem State.ElementsInRange.assembled_block (hr : s.ElementsInRange s.len (maskOf i)) {n j : Nat}
    (hn : n < s.len / ratioOf i) (hj : j < ratioOf i) :
    Memory.read s.ebuf (n * ratioOf i + j) = some (assembledElement s (n * ratioOf i + j)).toNat ∧
      (assembledElement s (n * ratioOf i + j)).toNat ≤ maskOf i := by
  obtain ⟨v, hread, rfl, hle⟩ := hr.assembled (BitVec.isLt _) _ (element_lt_len hn hj)
  exact ⟨hread, hle⟩

/-- Each byte of a valid input is the sum of its shifted elements (R96). -/
theorem exec_legalPack_sum (hi : i ∈ legalPacks) (hn : s.len % ratioOf i = 0)
    (hr : s.ElementsInRange s.len (maskOf i)) :
    ∃ t, exec i s = .next t ∧ t.status = 0b001 ∧ t.olen = s.len / ratioOf i ∧
      ∀ n < s.len / ratioOf i, ∃ (byte : Byte) (e : Nat → Nat), Memory.read t.pbuf n = some byte ∧
        (∀ j < ratioOf i, Memory.read s.ebuf (ratioOf i * n + j) = some (e j)) ∧
        byte.toNat = ((List.range (ratioOf i)).map fun j => e j * 2 ^ (i.bits.toNat * j)).sum := by
  obtain ⟨t, ht, heq, -, hbytes⟩ := exec_legalPack_inRange hi hn hr
  have hst : t.status = 0b001 := congrArg State.status heq
  have hol : t.olen = s.len / ratioOf i := congrArg State.olen heq
  refine ⟨t, ht, hst, hol, fun n hlt =>
    ⟨_, fun j => (assembledElement s (n * ratioOf i + j)).toNat, hbytes n hlt, fun j hj => ?_, ?_⟩⟩
  · rw [Nat.mul_comm]
    exact (hr.assembled_block hlt hj).1
  · exact (packedByteIsSum i.bits _ (legalPacks_facts hi).2 fun j hj => (hr.assembled_block hlt hj).2).2

end LegalPack

/-! The fields of a byte (R41): `b` bits from `b * j` up. -/

/-- The bits of a sub-position are what the field extraction of UNPACK gives. -/
theorem extractLsb'_eq_fieldAt {b : Byte} (h : isSupported b = true) (p : Byte) (j : Nat) :
    p.extractLsb' (b.toNat * j) b.toNat = (fieldAt b (ratioMux b).mask p j).setWidth b.toNat := by
  apply BitVec.eq_of_getLsbD_eq
  intro k hk
  rw [BitVec.getLsbD_extractLsb', BitVec.getLsbD_setWidth, fieldAt_bit h p j (hk.trans_le (bits_le_eight h))]
  simp [hk]

/-- Settles O27: the frame is that of a success, and field `j` of an assembled byte is its element `j`. -/
theorem packSucceedsWithFrame : Obligations.PackSucceedsWithFrame := by
  intro i hi s hn hr
  obtain ⟨-, hb⟩ := legalPacks_facts hi
  obtain ⟨t, ht, heq, habove, hbytes⟩ := exec_legalPack_inRange hi hn hr
  refine ⟨t, ht, heq, habove, fun n hlt => ⟨_, hbytes n hlt, fun j hj v hv => ?_⟩⟩
  have hfield : fieldAt i.bits (ratioMux i.bits).mask
      (packByte i.bits (ratioOf i) fun j => assembledElement s (n * ratioOf i + j)) j =
        assembledElement s (n * ratioOf i + j) :=
    fieldAt_packByte hb (fun j hj => (hr.assembled_block hlt hj).2) hj
  rw [extractLsb'_eq_fieldAt hb, hfield, assembledElement_written hv,
    BitVec.setWidth_ofNat_of_le (bits_le_eight hb)]

/-! The four widths (R100 to R103). -/

/-- Settles O28: a field of width 1 is a bit. -/
theorem packOneBit : Obligations.PackOneBit := by
  intro s
  refine ⟨exec_legalPack_misaligned (i := .pack1) (by decide),
    exec_legalPack_outOfRange (i := .pack1) (by decide), fun hn hr => ?_⟩
  obtain ⟨t, ht, heq, -, hbytes⟩ := packSucceedsWithFrame .pack1 (by decide) s hn hr
  have hst : t.status = 0b001 := congrArg State.status heq
  have hol : t.olen = s.len / 8 := congrArg State.olen heq
  refine ⟨t, ht, hst, hol, fun i hi => ?_⟩
  obtain ⟨byte, hbyte, hfields⟩ := hbytes i hi
  refine ⟨byte, hbyte, fun j hj v hv => ?_⟩
  have hfield : byte.extractLsb' (1 * j) 1 = BitVec.ofNat 1 v := hfields j hj v (Nat.mul_comm 8 i ▸ hv)
  have hbit := congrArg (fun x => x.getLsbD 0) hfield
  simp only [BitVec.getLsbD_extractLsb', BitVec.getLsbD_ofNat] at hbit
  simpa using hbit

/-- Settles O29: the sum of R96 at width 2. -/
theorem packTwoBits : Obligations.PackTwoBits := by
  intro s
  refine ⟨exec_legalPack_misaligned (i := .pack2) (by decide),
    exec_legalPack_outOfRange (i := .pack2) (by decide), fun hn hr => ?_⟩
  obtain ⟨t, ht, hst, hol, hbytes⟩ := exec_legalPack_sum (i := .pack2) (by decide) hn hr
  refine ⟨t, ht, hst, hol, fun i hi => ?_⟩
  obtain ⟨byte, e, hbyte, hread, hsum⟩ := hbytes i hi
  have hsum' : byte.toNat = e 0 * 1 + (e 1 * 4 + (e 2 * 16 + (e 3 * 64 + 0))) := hsum
  exact ⟨byte, e 0, e 1, e 2, e 3, hbyte, hread 0 (by decide), hread 1 (by decide), hread 2 (by decide),
    hread 3 (by decide), by omega⟩

/-- Settles O30: the sum of R96 at width 4. -/
theorem packFourBits : Obligations.PackFourBits := by
  intro s
  refine ⟨exec_legalPack_misaligned (i := .pack4) (by decide),
    exec_legalPack_outOfRange (i := .pack4) (by decide), fun hn hr => ?_⟩
  obtain ⟨t, ht, hst, hol, hbytes⟩ := exec_legalPack_sum (i := .pack4) (by decide) hn hr
  refine ⟨t, ht, hst, hol, fun i hi => ?_⟩
  obtain ⟨byte, e, hbyte, hread, hsum⟩ := hbytes i hi
  have hsum' : byte.toNat = e 0 * 1 + (e 1 * 16 + 0) := hsum
  exact ⟨byte, e 0, e 1, hbyte, hread 0 (by decide), hread 1 (by decide), by omega⟩

/-- Every length is a multiple of 1 (R145). -/
theorem exec_pack8_not_misaligned {s t : State} (ht : exec .pack8 s = .next t) : t.status ≠ 0b101 :=
  fun hst => misaligned_of_status (b := 8) ht hst (Nat.mod_one _)

/-- With 8-bit cells no element exceeds `MASK`, written or drawn (R146). -/
theorem exec_pack8_in_range {s t : State} (hw : s.cfg.wElem = 8) (hs : s.Inv) (ht : exec .pack8 s = .next t) :
    t.status ≠ 0b111 := by
  intro hst
  obtain ⟨k, hk, -⟩ := outOfRange_of_status (b := 8) ht hst
  have hgt : 255 < checkedElement s k := (firstOutOfRange_some.mp hk).2.1
  have hlt : checkedElement s k < 2 ^ s.cfg.wElem := elementRead_lt (fun c hc => (hs.ebufFits c hc).2) _ _
  rw [hw] at hlt
  omega

/-- Settles O31: the sum of R96 at width 8, where every length is aligned. -/
theorem packEightBits : Obligations.PackEightBits := by
  intro s
  have hn : s.len % ratioOf .pack8 = 0 := Nat.mod_one _
  refine ⟨fun t ht => ⟨exec_pack8_not_misaligned ht, fun hw hs => exec_pack8_in_range hw hs ht⟩,
    exec_legalPack_outOfRange (i := .pack8) (by decide) hn, fun hr => ?_⟩
  obtain ⟨t, ht, hst, hol, hbytes⟩ := exec_legalPack_sum (i := .pack8) (by decide) hn hr
  have hdiv : s.len / ratioOf .pack8 = s.len := Nat.div_one _
  rw [hdiv] at hol hbytes
  refine ⟨t, ht, hst, hol, fun i hi => ?_⟩
  obtain ⟨byte, e, hbyte, hread, hsum⟩ := hbytes i hi
  have hsum' : byte.toNat = e 0 * 1 + 0 := hsum
  have hread' : Memory.read s.ebuf (1 * i + 0) = some (e 0) := hread 0 (by decide)
  rw [Nat.one_mul, Nat.add_zero] at hread'
  exact ⟨byte, e 0, hbyte, hread', by omega⟩

end Sys2Proof.Machine

/-! PROOFS. The family 42_unpack: the success of an admitted UNPACK, for all four widths at once, and the elements of a
byte at each width. -/

namespace Sys2Proof.Machine

/-- Element `e` of the output is field `e mod RATIO` of byte `e / RATIO` (R43). -/
theorem Memory.read_unpackedElements (m : Memory Nat) (b mask : Byte) (s : State) {ratio e : Nat}
    (he : e < s.len * ratio) :
    Memory.read (Memory.writeSeq m 0 (unpackedElements b ratio mask s)) e =
      some (fieldAt b mask (sourceByte s (e / ratio)) (e % ratio)).toNat := by
  rw [Memory.read_writeSeq_zero _ _ (by simpa using he), unpackedElements_getElem]

/-- A field as a number is its `b` bits: masking leaves nothing above them. -/
theorem fieldAt_toNat {b : Byte} (h : isSupported b = true) (p : Byte) (j : Nat) :
    (fieldAt b (ratioMux b).mask p j).toNat = (p.extractLsb' (b.toNat * j) b.toNat).toNat := by
  rw [extractLsb'_eq_fieldAt h, BitVec.toNat_setWidth,
    Nat.mod_eq_of_lt (lt_two_pow_of_le_mask h (fieldAt_le _ _ _ _))]

/-! The success of a legal UNPACK (R113, R114, R120). -/

section LegalUnpack

variable {i : Instr} {s : State}

theorem exec_legalUnpack (hi : i ∈ legalUnpacks) (s : State) : exec i s = unpackCommand i.bits s := by
  have hop : i.op ≠ 0 := by rw [(legalUnpacks_facts hi).1]; decide
  rw [exec_eq, if_neg hop]

/-- An output that fits succeeds with `OLEN = LEN * RATIO`; nothing but the report and `EBUF[0 .. LEN * RATIO - 1]`
changes. -/
theorem exec_legalUnpack_admitted (hi : i ∈ legalUnpacks) (hn : s.len * ratioOf i ≤ 2 ^ s.cfg.wLen - 1) :
    ∃ t, exec i s = .next t ∧ t = ((s.withEbuf t.ebuf).withReport 0b001 (s.len * ratioOf i) 0 0 0).nextDraw ∧
      (∀ n, s.len * ratioOf i ≤ n → Memory.read t.ebuf n = Memory.read s.ebuf n) ∧
      ∀ n < s.len * ratioOf i, Memory.read t.ebuf n =
        some (fieldAt i.bits (ratioMux i.bits).mask (sourceByte s (n / ratioOf i)) (n % ratioOf i)).toNat :=
  ⟨_, (exec_legalUnpack hi s).trans (unpackCommand_success (legalUnpacks_facts hi).2 hn), succeeded_eq _ _,
    fun _ hk => Memory.read_writeSeq_above _ _ (by simpa [ratioOf] using hk),
    fun _ hk => Memory.read_unpackedElements _ _ _ _ hk⟩

/-- Element `RATIO * n + j` is sub-position `j` of byte `n`, where that byte has been written (R43, R113). -/
theorem exec_legalUnpack_fields (hi : i ∈ legalUnpacks) (hn : s.len * ratioOf i ≤ 2 ^ s.cfg.wLen - 1) :
    ∃ t, exec i s = .next t ∧ t.status = 0b001 ∧ t.olen = ratioOf i * s.len ∧
      ∀ n < s.len, ∀ p, Memory.read s.pbuf n = some p → ∀ j < ratioOf i,
        Memory.read t.ebuf (ratioOf i * n + j) =
          some (p.extractLsb' (i.bits.toNat * j) i.bits.toNat).toNat := by
  obtain ⟨t, ht, heq, -, helements⟩ := exec_legalUnpack_admitted hi hn
  have hst : t.status = 0b001 := congrArg State.status heq
  have hol : t.olen = s.len * ratioOf i := congrArg State.olen heq
  refine ⟨t, ht, hst, hol.trans (Nat.mul_comm _ _), fun n hlt p hp j hj => ?_⟩
  have hdiv : (ratioOf i * n + j) / ratioOf i = n := by
    rw [Nat.mul_add_div (Nat.zero_lt_of_lt hj), Nat.div_eq_of_lt hj, Nat.add_zero]
  have hmod : (ratioOf i * n + j) % ratioOf i = j := by rw [Nat.mul_add_mod, Nat.mod_eq_of_lt hj]
  rw [helements _ (Nat.mul_add_lt_mul_of_lt_of_lt hlt hj), hdiv, hmod, sourceByte_written hp,
    fieldAt_toNat (legalUnpacks_facts hi).2]

end LegalUnpack

/-- Settles O43: the frame is that of a success, and a masked field is at most `MASK`. -/
theorem unpackSucceedsWithFrame : Obligations.UnpackSucceedsWithFrame := by
  intro i hi s hn
  obtain ⟨t, ht, heq, habove, helements⟩ := exec_legalUnpack_admitted hi hn
  exact ⟨t, ht, heq, habove, fun n hlt => ⟨_, fieldAt_le _ _ _ _, helements n hlt⟩⟩

/-! The four widths (R116 to R119). -/

theorem extractLsb'_one_toNat (p : Byte) (j : Nat) : (p.extractLsb' j 1).toNat = (p.getLsbD j).toNat := by
  rw [BitVec.extractLsb'_toNat, Nat.shiftRight_eq_div_pow, ← BitVec.testBit_toNat, Nat.toNat_testBit]

/-- Settles O39: a field of width 1 is a bit. -/
theorem unpackOneBit : Obligations.UnpackOneBit := by
  intro s hn
  obtain ⟨t, ht, hst, hol, hfields⟩ := exec_legalUnpack_fields (i := .unpack1) (by decide) hn
  refine ⟨t, ht, hst, hol, fun i hi p hp j hj => ?_⟩
  have hfield : Memory.read t.ebuf (8 * i + j) = some (p.extractLsb' (1 * j) 1).toNat := hfields i hi p hp j hj
  rw [hfield, Nat.one_mul, extractLsb'_one_toNat]

/-- Settles O40: the four fields of width 2 start at bits 0, 2, 4 and 6. -/
theorem unpackTwoBits : Obligations.UnpackTwoBits := by
  intro s hn
  obtain ⟨t, ht, hst, hol, hfields⟩ := exec_legalUnpack_fields (i := .unpack2) (by decide) hn
  refine ⟨t, ht, hst, hol, fun i hi p hp => ?_⟩
  exact ⟨hfields i hi p hp 0 (by decide), hfields i hi p hp 1 (by decide), hfields i hi p hp 2 (by decide),
    hfields i hi p hp 3 (by decide)⟩

/-- Settles O41: the two fields of width 4 start at bits 0 and 4. -/
theorem unpackFourBits : Obligations.UnpackFourBits := by
  intro s hn
  obtain ⟨t, ht, hst, hol, hfields⟩ := exec_legalUnpack_fields (i := .unpack4) (by decide) hn
  refine ⟨t, ht, hst, hol, fun i hi p hp => ?_⟩
  exact ⟨hfields i hi p hp 0 (by decide), hfields i hi p hp 1 (by decide)⟩

/-- Settles O42: with `RATIO = 1` every `LEN` of the register's width is admitted, and the one field is the byte. -/
theorem unpackEightBits : Obligations.UnpackEightBits := by
  intro s hlen
  have hn : s.len * ratioOf .unpack8 ≤ 2 ^ s.cfg.wLen - 1 := (Nat.mul_one _).trans_le (Nat.le_sub_one_of_lt hlen)
  obtain ⟨t, ht, hst, hol, hfields⟩ := exec_legalUnpack_fields (i := .unpack8) (by decide) hn
  refine ⟨t, ht, hst, hol.trans (Nat.one_mul _), fun i hi p hp => ?_⟩
  have hfield : Memory.read t.ebuf (1 * i + 0) = some (p.extractLsb' 0 8).toNat := hfields i hi p hp 0 (by decide)
  rwa [Nat.one_mul, BitVec.extractLsb'_eq_self] at hfield

end Sys2Proof.Machine

/-! PROOFS. The family 43_host_access: what each host operation does where it can be expressed, and which accesses and
commands are refused. -/

namespace Sys2Proof.Machine

/-! The registers (R127 to R129): number `k` is a register exactly when it is some register's number. -/

theorem Reg.ofNumber_number (r : Reg) : Reg.ofNumber r.number = some r := by
  cases r <;> rfl

theorem Reg.number_of_ofNumber {k : Nat} {r : Reg} (h : Reg.ofNumber k = some r) : r.number = k := by
  unfold Reg.ofNumber at h
  split at h <;> cases h <;> rfl

/-- Numbers above 6 name no register (R13). -/
theorem Reg.ofNumber_eq_none {k : Nat} (hk : 6 < k) : Reg.ofNumber k = none := by
  cases h : Reg.ofNumber k with
  | none => rfl
  | some r =>
    have hnum : r.number = k := Reg.number_of_ofNumber h
    cases r <;> simp only [Reg.number] at hnum <;> omega

section Registers

variable {s : State} {rest : List Event} {k v : Nat}

theorem hostRdreg_number (r : Reg) (s : State) : hostRdreg r.number s = .next (s.withReply (readReg s r)) := by
  rw [hostRdreg, Reg.ofNumber_number]

theorem hostWrreg_number (r : Reg) (v : Nat) (s : State) :
    hostWrreg r.number v s = if v < 2 ^ r.width s.cfg then writeReg r v s else .refused (.dataTooWide v) := by
  rw [hostWrreg, Reg.ofNumber_number]

theorem hostRdreg_noSuchRegister (h : Reg.ofNumber k = none) : hostRdreg k s = .refused (.noSuchRegister k) := by
  rw [hostRdreg, h]

theorem hostWrreg_noSuchRegister (h : Reg.ofNumber k = none) : hostWrreg k v s = .refused (.noSuchRegister k) := by
  rw [hostWrreg, h]

/-- A read of register `r` gives its value in the state before the step, since taking the event off touches none. -/
theorem step_rdreg (r : Reg) (h : s.pending = .op (.rdreg r.number) :: rest) :
    step s = .next ((s.withPending rest).withReply (readReg s r)) := by
  rw [step_pending h]
  exact hostRdreg_number r (s.withPending rest)

theorem step_wrreg (r : Reg) (h : s.pending = .op (.wrreg r.number v) :: rest) (hv : v < 2 ^ r.width s.cfg) :
    step s = writeReg r v (s.withPending rest) := by
  rw [step_pending h]
  exact (hostWrreg_number r v (s.withPending rest)).trans (if_pos hv)

end Registers

/-- Settles O17: each number of the list is a register's number. -/
theorem registerReadReturnsValue : Obligations.RegisterReadReturnsValue := by
  intro s rest
  simp only [List.forall_mem_cons]
  exact ⟨step_rdreg .cmd, step_rdreg .len, step_rdreg .status, step_rdreg .olen, step_rdreg .errIndex,
    step_rdreg .errValue, step_rdreg .errReq, List.forall_mem_nil _⟩

/-- Settles O18: `writeReg` stores `LEN`, and of the other registers it writes `CMD` only. -/
theorem registerWriteStoresLenOnly : Obligations.RegisterWriteStoresLenOnly := by
  intro s rest v
  simp only [List.forall_mem_cons]
  exact ⟨step_wrreg .len, step_wrreg .status, step_wrreg .olen, step_wrreg .errIndex, step_wrreg .errValue,
    step_wrreg .errReq, List.forall_mem_nil _⟩

/-! Issuing a command (R129). -/

/-- Settles O14: the step issues the word, and a decoded word runs its general rule. -/
theorem stepRunsIssuedCommand : Obligations.StepRunsIssuedCommand := by
  intro s w rest hp
  have hstep : step s = exec (decode w) ((s.withPending rest).withCmd w) := step_wrreg_cmd hp
  exact ⟨hstep, hstep.trans (exec_decode w _)⟩

/-- A command word has no bit that the table's instruction width drops (R60). -/
theorem tableWord_of_lt {nbits w : Nat} (hn : 9 ≤ nbits) (hw : w < 2 ^ 9) : tableWord nbits w = w :=
  Nat.mod_eq_of_lt (hw.trans_le (Nat.pow_le_pow_right Nat.two_pos hn))

/-- Settles O15: the word placed is the whole number, and taking its write off gives back the events of `s`. -/
theorem placedWordRunsNext : Obligations.PlacedWordRunsNext := by
  intro s nbits w hn hw
  have htable : tableWord nbits w = w := tableWord_of_lt hn hw
  have hp : (s.withFetchWord nbits w).pending = .op (.wrreg 0 w) :: s.pending := by
    rw [State.withFetchWord, htable, placeCommand, State.withPending_pending]
  constructor
  · rw [step_pending hp]
    exact hostWrreg_cmd (s := s) hw
  · rw [decodeTableWord, htable, decodeWord, if_pos hw]

/-! The cells (R130 to R133). -/

section Cells

variable {s : State} {i v : Nat}

theorem hostWre_fits (hi : i < 2 ^ s.cfg.wLen) (hv : v < 2 ^ s.cfg.wElem) :
    hostWre i v s = .next (s.withEbuf (Memory.write s.ebuf i v)) := by
  rw [hostWre, if_pos hi, if_pos hv]

theorem hostWrp_fits (hi : i < 2 ^ s.cfg.wLen) (b : Byte) :
    hostWrp i b.toNat s = .next (s.withPbuf (Memory.write s.pbuf i b)) := by
  rw [hostWrp, if_pos hi, if_pos b.isLt, BitVec.ofNat_toNat, BitVec.setWidth_eq]

/-- A cell that does not exist is named whatever the data is (R135). -/
theorem performOp_noSuchCell (hi : 2 ^ s.cfg.wLen ≤ i) :
    ∀ o ∈ [HostOp.rde i, .wre i v, .rdp i, .wrp i v], performOp o s = .refused (.noSuchCell i) := by
  simp only [List.forall_mem_cons]
  exact ⟨if_neg hi.not_gt, if_neg hi.not_gt, if_neg hi.not_gt, if_neg hi.not_gt, List.forall_mem_nil _⟩

theorem hostWre_tooWide (hi : i < 2 ^ s.cfg.wLen) (hv : 2 ^ s.cfg.wElem ≤ v) :
    hostWre i v s = .refused (.dataTooWide v) := by
  rw [hostWre, if_pos hi, if_neg hv.not_gt]

theorem hostWrp_tooWide (hi : i < 2 ^ s.cfg.wLen) (hv : 2 ^ 8 ≤ v) : hostWrp i v s = .refused (.dataTooWide v) := by
  rw [hostWrp, if_pos hi, if_neg hv.not_gt]

end Cells

/-- Settles O19: the buffer after the step is the one write to it. -/
theorem elementWriteStoresCell : Obligations.ElementWriteStoresCell := by
  intro s rest i v hp hi hv
  have hstep : step s = .next ((s.withPending rest).withEbuf (Memory.write s.ebuf i v)) :=
    (step_pending hp).trans (hostWre_fits (s := s.withPending rest) hi hv)
  exact ⟨_, hstep, Memory.read_write_same _ _ _, fun _ hk => Memory.read_write_other _ _ hk, rfl⟩

/-- Settles O20: the buffer after the step is the one write to it. -/
theorem byteWriteStoresCell : Obligations.ByteWriteStoresCell := by
  intro s rest i b hp hi
  have hstep : step s = .next ((s.withPending rest).withPbuf (Memory.write s.pbuf i b)) :=
    (step_pending hp).trans (hostWrp_fits (s := s.withPending rest) hi b)
  exact ⟨_, hstep, Memory.read_write_same _ _ _, fun _ hk => Memory.read_write_other _ _ hk, rfl⟩

/-- Settles O23: the step is the host operation, which checks the register or cell first and the data second. -/
theorem inexpressibleAccessRefused : Obligations.InexpressibleAccessRefused := by
  intro s rest i v
  refine ⟨fun hi hp => ?_, fun hi hp => ?_, fun r hr hv hp => ?_, fun hi o ho hp => ?_, fun hi hv hp => ?_,
    fun hi hv hp => ?_⟩ <;> rw [step_pending hp]
  · exact hostRdreg_noSuchRegister (Reg.ofNumber_eq_none hi)
  · exact hostWrreg_noSuchRegister (Reg.ofNumber_eq_none hi)
  · obtain rfl := Reg.number_of_ofNumber hr
    exact (hostWrreg_number r v (s.withPending rest)).trans (if_neg hv.not_gt)
  · exact performOp_noSuchCell (s := s.withPending rest) hi o ho
  · exact hostWre_tooWide (s := s.withPending rest) hi hv
  · exact hostWrp_tooWide (s := s.withPending rest) hi hv

/-! Admission (R134): every PACK completes, and an UNPACK unless its output does not fit. -/

/-- The four outcomes write four words to `STATUS`, and the three errors write 0 to `OLEN` (R16, R150). -/
theorem packCommand_completes (b : Byte) (s : State) :
    ∃ t, packCommand b s = .next t ∧ t.status ∈ [0b001, 0b011, 0b101, 0b111] ∧ (t.status ≠ 0b001 → t.olen = 0) := by
  rcases packCommand_cases b s with ⟨-, hc⟩ | ⟨-, -, hc⟩ | ⟨-, -, k, -, hc⟩ | ⟨-, -, -, hc⟩ <;> refine ⟨_, hc, ?_⟩
  case inr.inr.inr => exact ⟨by simp, fun hst => absurd statusWord_zero hst⟩
  all_goals exact ⟨by simp [CmdError.code], fun _ => raised_olen _ _⟩

/-- Settles O36: a command of `OP` 0 is a PACK. -/
theorem packAlwaysCompletes : Obligations.PackAlwaysCompletes := by
  intro i s hop
  rw [exec_eq, if_pos hop]
  exact packCommand_completes i.bits s

theorem unpackCommand_next_iff (b : Byte) (s : State) :
    (∃ t, unpackCommand b s = .next t) ↔
      isSupported b = false ∨ s.len * (ratioMux b).ratio.toNat ≤ 2 ^ s.cfg.wLen - 1 := by
  rcases unpackCommand_cases b s with ⟨hb, hc⟩ | ⟨hb, hn, hc⟩ | ⟨-, hn, hc⟩
  · exact ⟨fun _ => .inl hb, fun _ => ⟨_, hc⟩⟩
  · simp [hc, hb, hn]
  · exact ⟨fun _ => .inr hn, fun _ => ⟨_, hc⟩⟩

theorem exec_legalUnpack_refused_iff {i : Instr} (hi : i ∈ legalUnpacks) (s : State) :
    exec i s = .refused .unpackNotAdmitted ↔ 2 ^ s.cfg.wLen - 1 < s.len * ratioOf i := by
  obtain ⟨-, hb⟩ := legalUnpacks_facts hi
  rw [exec_legalUnpack hi]
  refine ⟨fun h => Nat.lt_of_not_le fun hn => ?_, unpackCommand_refused hb⟩
  cases (unpackCommand_success hb hn).symm.trans h

/-- Settles O44: a legal UNPACK is refused where its output does not fit, and the width is checked before that. -/
theorem unpackAdmission : Obligations.UnpackAdmission := by
  intro s
  refine ⟨fun i hi => exec_legalUnpack_refused_iff hi s, fun b hb => ?_, fun i hop => ?_⟩
  · exact ⟨_, unpackCommand_invalid hb, statusWord_one⟩
  · obtain ⟨t, ht, -⟩ := packAlwaysCompletes i s hop
    exact ⟨t, ht⟩

/-- The command of a word completes exactly when the word is admitted (R134). -/
theorem exec_decode_next_iff (w : CmdWord) (s : State) :
    (∃ t, exec (decode w) s = .next t) ↔ admitted s w = true := by
  rw [exec_decode]
  split
  next hop =>
    obtain ⟨t, ht, -⟩ := packCommand_completes (bitsField w) s
    simp [admitted, hop, ht]
  next hop =>
    have hop' : opField w = 1 := (opField_cases w).resolve_left hop
    simp [unpackCommand_next_iff, admitted, hop']

/-! Which events go on (R125, R134, R135). -/

/-- What passes its check goes on as the operation behind the check does. -/
theorem ite_refused_next_iff {c : Prop} [Decidable c] (o : Host.Outcome State Fault Refusal) (r : Refusal) :
    (∃ t, (if c then o else .refused r) = .next t) ↔ c ∧ ∃ t, o = .next t := by
  by_cases hc : c <;> simp [hc]

/-- Of the registers only `CMD` runs a command, which may not be admitted. -/
theorem writeReg_next_iff (r : Reg) (v : Nat) (s : State) :
    (∃ t, writeReg r v s = .next t) ↔ (r.number = 0 → admitted s (BitVec.ofNat 9 v) = true) := by
  cases r
  case cmd =>
    have hexec := exec_decode_next_iff (BitVec.ofNat 9 v) (s.withCmd (BitVec.ofNat 9 v))
    exact hexec.trans ⟨fun h _ => h, fun h => h rfl⟩
  all_goals simp [writeReg, Reg.number]

theorem hostRdreg_next_iff (k : Nat) (s : State) :
    (∃ t, hostRdreg k s = .next t) ↔ eventPermitted s (.op (.rdreg k)) = true := by
  cases hr : Reg.ofNumber k with
  | none => simp [hostRdreg_noSuchRegister hr, eventPermitted, HostOp.expressible, hr]
  | some r =>
    obtain rfl := Reg.number_of_ofNumber hr
    simp [hostRdreg_number, eventPermitted, HostOp.expressible, hr]

theorem hostWrreg_next_iff (k v : Nat) (s : State) :
    (∃ t, hostWrreg k v s = .next t) ↔ eventPermitted s (.op (.wrreg k v)) = true := by
  cases hr : Reg.ofNumber k with
  | none => simp [hostWrreg_noSuchRegister hr, eventPermitted, HostOp.expressible, hr]
  | some r =>
    obtain rfl := Reg.number_of_ofNumber hr
    rw [hostWrreg_number, ite_refused_next_iff, writeReg_next_iff]
    simp [eventPermitted, HostOp.expressible, hr, imp_iff_not_or]

/-- An event goes on exactly when it can be expressed and the command it may issue is admitted. -/
theorem performEvent_next_iff (e : Event) (s : State) :
    (∃ t, performEvent e s = .next t) ↔ eventPermitted s e = true := by
  cases e with
  | reset => simp [performEvent, eventPermitted]
  | op o =>
    rw [performEvent]
    cases o with
    | rdreg k => exact hostRdreg_next_iff k s
    | wrreg k v => exact hostWrreg_next_iff k v s
    | rde i => simp [performOp, hostRde, ite_refused_next_iff, eventPermitted, HostOp.expressible]
    | wre i v => simp [performOp, hostWre, ite_refused_next_iff, eventPermitted, HostOp.expressible]
    | rdp i => simp [performOp, hostRdp, ite_refused_next_iff, eventPermitted, HostOp.expressible]
    | wrp i b => simp [performOp, hostWrp, ite_refused_next_iff, eventPermitted, HostOp.expressible]

/-- Settles O24: with no event pending the step is the idle one, else it performs the first event, and taking that event
off changes nothing the permission reads. No step faults, because `Fault` has no constructor. -/
theorem stepGoesOnIffPermitted : Obligations.StepGoesOnIffPermitted := by
  intro s
  refine ⟨?_, fun r => nomatch r⟩
  cases hp : s.pending with
  | nil => exact ⟨fun _ => nofun, fun _ => ⟨s, idleCoreChangesNothing s hp⟩⟩
  | cons e rest =>
    have hstep : s.StepsOn ↔ eventPermitted s e = true := by
      rw [State.StepsOn, step_pending hp]
      exact performEvent_next_iff e (s.withPending rest)
    simp [hstep]

end Sys2Proof.Machine

/-! PROOFS. The family 44_codec_laws: each round trip composes what one command guarantees with what the other
does, field by field. -/

namespace Sys2Proof.Machine

/-- The two commands of a pair are legal and have one operand. -/
theorem codecPairs_facts {p : Instr × Instr} (hp : p ∈ codecPairs) :
    p.1 ∈ legalPacks ∧ p.2 ∈ legalUnpacks ∧ p.2.bits = p.1.bits := by
  simp only [codecPairs, List.mem_cons, List.not_mem_nil, or_false] at hp
  rcases hp with rfl | rfl | rfl | rfl <;> decide

theorem ratioOf_congr {i i' : Instr} (h : i'.bits = i.bits) : ratioOf i' = ratioOf i := by
  rw [ratioOf, ratioOf, h]

theorem maskOf_congr {i i' : Instr} (h : i'.bits = i.bits) : maskOf i' = maskOf i := by
  rw [maskOf, maskOf, h]

/-! The length law (R138). -/

section Length

variable {b : Byte} {s t : State}

/-- Of the four outcomes of PACK only the success writes the word of a success. -/
theorem packCommand_success_of_status (ht : packCommand b s = .next t) (hst : t.status = 0b001) :
    isSupported b = true ∧ s.len % (ratioMux b).ratio.toNat = 0 ∧ t.olen = s.len / (ratioMux b).ratio.toNat := by
  rcases packCommand_cases b s with ⟨-, hc⟩ | ⟨-, -, hc⟩ | ⟨-, -, k, -, hc⟩ | ⟨hb, hn, -, hc⟩ <;>
    obtain rfl := Host.Outcome.next.inj (hc.symm.trans ht)
  case inr.inr.inr => exact ⟨hb, hn, rfl⟩
  all_goals simp [CmdError.code] at hst

theorem unpackCommand_success_of_status (ht : unpackCommand b s = .next t) (hst : t.status = 0b001) :
    isSupported b = true ∧ t.olen = s.len * (ratioMux b).ratio.toNat := by
  rcases unpackCommand_cases b s with ⟨-, hc⟩ | ⟨-, -, hc⟩ | ⟨hb, -, hc⟩ <;> rw [hc] at ht <;> cases ht
  case inl => simp [CmdError.code] at hst
  case inr.inr => exact ⟨hb, rfl⟩

end Length

/-- Settles O48: after a success the width is supported, and there `RATIO * bits = 8`. -/
theorem lengthLaw : Obligations.LengthLaw := by
  intro i s t ht hst
  rw [exec_eq] at ht
  constructor <;> intro hop
  · rw [if_pos hop] at ht
    obtain ⟨hb, hn, hol⟩ := packCommand_success_of_status ht hst
    calc t.olen * 8
      _ = s.len / (ratioMux i.bits).ratio.toNat * ((ratioMux i.bits).ratio.toNat * i.bits.toNat) := by
        rw [hol, (ratioMux_supported hb).1]
      _ = s.len * i.bits.toNat := by rw [← Nat.mul_assoc, Nat.div_mul_cancel (Nat.dvd_of_mod_eq_zero hn)]
  · rw [if_neg (by rw [hop]; decide)] at ht
    obtain ⟨hb, hol⟩ := unpackCommand_success_of_status ht hst
    rw [hol, Nat.mul_assoc, (ratioMux_supported hb).1]

/-! The empty sequence (R190). -/

/-- No elements are out of range and no bytes are stored. -/
theorem packCommand_empty {b : Byte} {s : State} (hb : isSupported b = true) (hlen : s.len = 0) :
    packCommand b s = .next (succeeded 0 s) := by
  have hbytes : packedBytes b (ratioMux b).ratio.toNat s = [] := List.eq_nil_of_length_eq_zero (by simp [hlen])
  rw [packCommand_success hb (by simp [hlen]) (by simp [hlen]), hbytes, hlen, Nat.zero_div]
  rfl

theorem unpackCommand_empty {b : Byte} {s : State} (hb : isSupported b = true) (hlen : s.len = 0) :
    unpackCommand b s = .next (succeeded 0 s) := by
  have helements : unpackedElements b (ratioMux b).ratio.toNat (ratioMux b).mask s = [] :=
    List.eq_nil_of_length_eq_zero (by simp [hlen])
  rw [unpackCommand_success hb (by simp [hlen]), helements, hlen, Nat.zero_mul]
  rfl

/-- Settles O49: a legal command is PACK or UNPACK at a supported width. -/
theorem emptyInputSucceeds : Obligations.EmptyInputSucceeds := by
  intro i hi s hlen
  rw [← succeeded_eq]
  rcases List.mem_append.mp hi with hi | hi
  · exact (exec_legalPack hi s).trans (packCommand_empty (legalPacks_facts hi).2 hlen)
  · exact (exec_legalUnpack hi s).trans (unpackCommand_empty (legalUnpacks_facts hi).2 hlen)

/-! The round trips (R137, R139). -/

/-- A byte is determined by its fields, since they assemble to it (R83). -/
theorem eq_of_fields_eq {b : Byte} (h : isSupported b = true) {p q : Byte}
    (hf : ∀ j < (ratioMux b).ratio.toNat, p.extractLsb' (b.toNat * j) b.toNat = q.extractLsb' (b.toNat * j) b.toNat) :
    p = q := by
  have hfield : ∀ j < (ratioMux b).ratio.toNat, fieldAt b (ratioMux b).mask p j = fieldAt b (ratioMux b).mask q j :=
    fun j hj => BitVec.eq_of_toNat_eq (by rw [fieldAt_toNat h, fieldAt_toNat h, hf j hj])
  calc p
    _ = packByte b (ratioMux b).ratio.toNat (fieldAt b (ratioMux b).mask p) := (packByte_fieldAt h p).symm
    _ = packByte b (ratioMux b).ratio.toNat (fieldAt b (ratioMux b).mask q) := packByte_congr b hfield
    _ = q := packByte_fieldAt h q

/-- What an admitted UNPACK of a pair guarantees, at the operand of the pair's PACK. -/
theorem exec_pairedUnpack {p : Instr × Instr} {s : State} (hp : p ∈ codecPairs)
    (hn : s.len * ratioOf p.1 ≤ 2 ^ s.cfg.wLen - 1) :
    ∃ t, exec p.2 s = .next t ∧ t.status = 0b001 ∧ t.olen = s.len * ratioOf p.1 ∧ t.pbuf = s.pbuf ∧
      t.ElementsInRange (s.len * ratioOf p.1) (maskOf p.1) ∧
      ∀ n < s.len, ∀ byte, Memory.read s.pbuf n = some byte → ∀ j < ratioOf p.1,
        Memory.read t.ebuf (n * ratioOf p.1 + j) =
          some (byte.extractLsb' (p.1.bits.toNat * j) p.1.bits.toNat).toNat := by
  obtain ⟨-, hun, hbits⟩ := codecPairs_facts hp
  rw [← ratioOf_congr hbits] at hn
  obtain ⟨t, ht, -, -, helements⟩ := unpackSucceedsWithFrame p.2 hun s hn
  obtain ⟨t', ht', hst, hol, hfields⟩ := exec_legalUnpack_fields hun hn
  obtain rfl := Host.Outcome.next.inj (ht'.symm.trans ht)
  obtain ⟨-, hpbuf, -⟩ := commandNeverWritesSource p.2 s t' ht
  rw [← ratioOf_congr hbits, ← maskOf_congr hbits, ← hbits]
  refine ⟨t', ht, hst, hol.trans (Nat.mul_comm _ _), hpbuf (legalUnpacks_facts hun).1, fun k hk => ?_,
    fun n hlt byte hbyte j hj => ?_⟩
  · obtain ⟨v, hle, hv⟩ := helements k hk
    exact ⟨v, hv, hle⟩
  · rw [Nat.mul_comm n]
    exact hfields n hlt byte hbyte j hj

/-- Settles O46: element `k` is field `k mod RATIO` of byte `k / RATIO` of PACK's output, where UNPACK reads it. -/
theorem packThenUnpackRestores : Obligations.PackThenUnpackRestores := by
  intro p hp s hlen hn hr
  obtain ⟨hpk, -, -⟩ := codecPairs_facts hp
  have hb : isSupported p.1.bits = true := (legalPacks_facts hpk).2
  have hdvd : ratioOf p.1 ∣ s.len := Nat.dvd_of_mod_eq_zero hn
  obtain ⟨t, ht, heq, -, hbytes⟩ := packSucceedsWithFrame p.1 hpk s hn hr
  obtain ⟨-, -, -, -, hcfg, -⟩ := commandNeverWritesSource p.1 s t ht
  have hst : t.status = 0b001 := congrArg State.status heq
  have hol : t.olen = s.len / ratioOf p.1 := congrArg State.olen heq
  have hback : (t.withLen t.olen).len * ratioOf p.1 = s.len := by
    rw [State.withLen_len, hol, Nat.div_mul_cancel hdvd]
  obtain ⟨u, hu, hust, huol, hpbuf, -, hfields⟩ := exec_pairedUnpack (s := t.withLen t.olen) hp
    (by rw [hback, State.withLen_cfg, hcfg]; exact Nat.le_sub_one_of_lt hlen)
  refine ⟨t, u, ht, hst, hu, hust, huol.trans hback, fun k hk => ?_, fun n => by rw [hpbuf, State.withLen_pbuf]⟩
  have hblock : k / ratioOf p.1 < s.len / ratioOf p.1 := Nat.div_lt_div_of_lt_of_dvd hdvd hk
  have hj : k % ratioOf p.1 < ratioOf p.1 := Nat.mod_lt k (ratioMux_supported hb).2.1
  obtain ⟨v, hv, hle⟩ := hr k hk
  obtain ⟨byte, hbyte, hfield⟩ := hbytes _ hblock
  have hread := hfields _ (hblock.trans_eq hol.symm) byte hbyte _ hj
  rwa [hfield _ hj v (by rwa [Nat.div_add_mod']), Nat.div_add_mod', BitVec.toNat_ofNat,
    Nat.mod_eq_of_lt (lt_two_pow_of_le_mask hb hle), ← hv] at hread

/-- Settles O47: field `j` of output byte `n` of PACK is element `n * RATIO + j`: field `j` of source byte `n`. -/
theorem unpackThenPackRestores : Obligations.UnpackThenPackRestores := by
  intro p hp s hfit hw
  obtain ⟨hpk, -, hbits⟩ := codecPairs_facts hp
  have hb : isSupported p.1.bits = true := (legalPacks_facts hpk).2
  have hratio : 0 < ratioOf p.1 := (ratioMux_supported hb).2.1
  obtain ⟨t, ht, hst, hol, hpbuf, hrange, hfields⟩ := exec_pairedUnpack hp (ratioOf_congr hbits ▸ hfit)
  rw [← hol] at hrange
  obtain ⟨u, hu, heq, habove, hbytes⟩ := packSucceedsWithFrame p.1 hpk (t.withLen t.olen)
    (by rw [State.withLen_len, hol, Nat.mul_mod_left]) hrange
  have hback : (t.withLen t.olen).len / ratioOf p.1 = s.len := by
    rw [State.withLen_len, hol, Nat.mul_div_cancel _ hratio]
  rw [hback] at habove hbytes
  have hust : u.status = 0b001 := congrArg State.status heq
  refine ⟨t, u, ht, hst, hu, hust, (congrArg State.olen heq).trans hback, fun n => ?_⟩
  rcases Nat.lt_or_ge n s.len with hn | hn
  · obtain ⟨byte, hbyte⟩ := Option.isSome_iff_exists.mp (hw n hn)
    obtain ⟨byte', hbyte', hpacked⟩ := hbytes n hn
    have hsame : byte' = byte := eq_of_fields_eq hb fun j hj => by
      rw [hpacked j hj _ (hfields n hn byte hbyte j hj), BitVec.ofNat_toNat, BitVec.setWidth_eq]
    rw [hbyte', hbyte, hsame]
  · rw [habove n hn, State.withLen_pbuf, hpbuf]

end Sys2Proof.Machine

/-! PROOFS. The family 60_exceptions: what each error records, and which of them a command raises. -/

namespace Sys2Proof.Machine

/-- Settles O6: `raise` answers the raised state, and the report of each error is known. -/
theorem raiseRecordsError : Obligations.RaiseRecordsError := fun s =>
  ⟨fun b => congrArg _ (raised_invalidBitWidth b s), fun r => congrArg _ (raised_misalignedLength r s),
    fun k v => congrArg _ (raised_valueOutOfRange k v s)⟩

theorem ofNat_ratioOf (i : Instr) : BitVec.ofNat 4 (ratioOf i) = (ratioMux i.bits).ratio := by
  rw [ratioOf, BitVec.ofNat_toNat, BitVec.setWidth_eq]

/-- Settles O32: the required multiple is `RATIO` itself, which at width 8 is 1 and divides every length. -/
theorem misalignedLengthRecorded : Obligations.MisalignedLengthRecorded := by
  have hlegal : ∀ i ∈ [Instr.pack1, .pack2, .pack4], i ∈ legalPacks := by decide
  refine ⟨fun i hi s hn => ?_, fun s t => exec_pack8_not_misaligned⟩
  rw [ofNat_ratioOf]
  exact exec_legalPack_misaligned (hlegal i hi) hn

/-- `STATUS.ERR` is the outcome the command wrote (R16). -/
@[simp] theorem statusErr_statusWord (err : BitVec 2) : statusErr (statusWord err) = err := by
  revert err
  decide

theorem statusErr_raised (e : CmdError) (s : State) : statusErr (raised e s).status = e.code := statusErr_statusWord _

section LowestIndex

variable {s : State} {k : Nat}

/-- A written cell above `MASK` with only written cells in range below it is what the range check finds (R95, R153). -/
theorem State.ElementsInRange.firstOutOfRange_eq {mask : Byte} (hr : s.ElementsInRange k mask.toNat) (hk : k < s.len)
    {v : Nat} (hread : Memory.read s.ebuf k = some v) (hv : mask.toNat < v) : firstOutOfRange s mask = some k :=
  firstOutOfRange_some.mpr ⟨hk, (checkedElement_written hread).symm ▸ hv, hr.checked_le⟩

/-- At a supported width and an aligned length, the lowest cell above `MASK` is the one reported (R143, R153). -/
theorem packCommand_lowest {b : Byte} (hb : isSupported b = true) (hn : s.len % (ratioMux b).ratio.toNat = 0)
    (hr : s.ElementsInRange k (ratioMux b).mask.toNat) (hk : k < s.len) {v : Nat}
    (hread : Memory.read s.ebuf k = some v) (hv : (ratioMux b).mask.toNat < v) :
    packCommand b s = .next (raised (.valueOutOfRange k v) (s.redrawPbuf (s.len / (ratioMux b).ratio.toNat))) := by
  rw [packCommand_outOfRange hb hn (hr.firstOutOfRange_eq hk hread hv), checkedElement_written hread]

end LowestIndex

/-- Settles O33: a redraw touches `PBUF` only, and the rest is the report of `ValueOutOfRange`. -/
theorem valueOutOfRangeRecorded : Obligations.ValueOutOfRangeRecorded := by
  intro i hi s k v hn hk hread hv hr
  obtain ⟨-, hb⟩ := legalPacks_facts hi
  exact ⟨_, (exec_legalPack hi s).trans (packCommand_lowest hb hn hr hk hread hv), raised_valueOutOfRange _ _ _⟩

/-- Settles O35: PACK completes, and under the premises of each clause only one of its four outcomes is left. Which cells
must be written the clauses themselves say, so the premise that all are is not used. -/
theorem packErrorPriority : Obligations.PackErrorPriority := by
  intro i s hop _
  obtain ⟨t, ht, -⟩ := packAlwaysCompletes i s hop
  have hpack : packCommand i.bits s = .next t := by rwa [exec_eq, if_pos hop] at ht
  have outcome {u : State} (hu : packCommand i.bits s = .next u) : t = u :=
    Host.Outcome.next.inj (hpack.symm.trans hu)
  refine ⟨t, ht, fun hb => ?_, fun hb hn => ?_, fun hb hn k hk ⟨v, hread, hv⟩ hr => ?_, fun hb hn hr => ?_⟩
  · rw [outcome (packCommand_invalid hb)]
    exact statusErr_raised _ _
  · rw [outcome (packCommand_misaligned hb hn)]
    exact statusErr_raised _ _
  · rw [outcome (packCommand_lowest hb hn hr hk hread hv)]
    exact ⟨statusErr_raised _ _, rfl⟩
  · rw [outcome (packCommand_success hb hn hr.checked_le)]
    exact statusErr_statusWord 0

/-- Settles O45: UNPACK has three outcomes, one of them a refusal, which has no next state. -/
theorem unpackRaisesInvalidBitWidthOnly : Obligations.UnpackRaisesInvalidBitWidthOnly := by
  intro i s t hop ht
  rw [exec_eq, if_neg (by rw [hop]; decide)] at ht
  rcases unpackCommand_cases i.bits s with ⟨hb, hc⟩ | ⟨-, -, hc⟩ | ⟨hb, -, hc⟩ <;> rw [hc] at ht <;> cases ht
  case inl => simp [hb, CmdError.code]
  case inr.inr => simp [hb]

end Sys2Proof.Machine

/-! PROOFS. The family of the model's own choices: what a host read of an unwritten cell answers. -/

namespace Sys2Proof.Machine

section UnwrittenRead

variable {s : State} {i : Nat}

/-- An unwritten cell of `EBUF` reads as the draw for it. -/
theorem elementRead_unwritten (d : Draw) (h : Memory.read s.ebuf i = none) :
    elementRead s d i = (Config.freeValue s.cfg.wElem s.draws d).toNat := by
  simp [elementRead, h]

/-- An unwritten cell of `PBUF` reads as the draw for it. -/
theorem byteRead_unwritten (d : Draw) (h : Memory.read s.pbuf i = none) :
    byteRead s d i = Config.freeValue 8 s.draws d := by
  simp [byteRead, h]

/-- The read replies with a draw of `W_ELEM` bits and uses up the draw number (log entries 3, 4). -/
theorem hostRde_unwritten (hi : i < 2 ^ s.cfg.wLen) (h : Memory.read s.ebuf i = none) :
    ∃ v < 2 ^ s.cfg.wElem, hostRde i s = .next (s.withReply v).nextDraw := by
  refine ⟨(Config.freeValue s.cfg.wElem s.draws (.hostElement i)).toNat, BitVec.isLt _, ?_⟩
  rw [hostRde, if_pos hi, elementRead_unwritten _ h, h, drawIfUnwritten]

/-- The read replies with a draw of 8 bits and uses up the draw number (log entries 3, 4). -/
theorem hostRdp_unwritten (hi : i < 2 ^ s.cfg.wLen) (h : Memory.read s.pbuf i = none) :
    ∃ v < 2 ^ 8, hostRdp i s = .next (s.withReply v).nextDraw := by
  refine ⟨(Config.freeValue 8 s.draws (.hostByte i)).toNat, BitVec.isLt _, ?_⟩
  rw [hostRdp, if_pos hi, byteRead_unwritten _ h, h, drawIfUnwritten]

end UnwrittenRead

/-- Settles O22: the step is the host's read, in the state with the event taken off, where the cell is as unwritten. -/
theorem unwrittenCellReadCompletes : Obligations.UnwrittenCellReadCompletes := by
  intro s rest i hi
  constructor <;> intro hpending hnone <;> rw [step_pending hpending]
  · exact hostRde_unwritten (s := s.withPending rest) hi hnone
  · exact hostRdp_unwritten (s := s.withPending rest) hi hnone

end Sys2Proof.Machine
